-- ==== Sys2Proof/Word.lean ====
section
/-! DEFINITION. The bit-vector types of the ports and operands, and the two word widths
(00_scope.md R6, R7; 10_state.md R22; 30_encoding.md R37, R39). -/

namespace Sys2Proof

/-- One byte: a byte parameter or a byte lane, an unsigned value 0 to 255 (R6, R39). -/
abbrev Byte := BitVec 8

/-- The command word `CMD[95:0]` (R22, R35). -/
abbrev Command := BitVec 96

/-- The word operand field `cmd.x` and the result field `R` are 64 bits wide (R21, R36). -/
abbrev Field64 := BitVec 64

/-- The two word widths, selected by field `w` (R6, R37). No other width can be selected. -/
inductive Width where
  /-- `w = 0`, `W = 32` -/
  | w32
  /-- `w = 1`, `W = 64` -/
  | w64
deriving DecidableEq, Repr

/-- `W`, the number of bits of a word (R37). -/
def Width.bits : Width → Nat
  | .w32 => 32
  | .w64 => 64

/-- `NL(W)`, the number of byte lanes of a word (R6). -/
def Width.lanes : Width → Nat
  | .w32 => 4
  | .w64 => 8

/-- The two paths of a bit-count block (44_bitcount.md R75). It is used both for the path a command
requests (field `p`, 30_encoding.md R40) and for the path that answers. -/
inductive Path where
  /-- the fixed sequence of word operations, present in every instance (R76) -/
  | fallback
  /-- the circuit that computes the reference function directly (R77) -/
  | fast
deriving DecidableEq, Repr

end Sys2Proof
end

