-- ==== Sys2Proof/Machine/Operands.lean ====
section
/-! DEFINITION. Operand assembly (30_encoding.md R37, R38), byte lanes (00_scope.md R7, R10;
20_memory.md R27) and the three result formats (30_encoding.md R45). -/

namespace Sys2Proof.Machine

/-- The word operand `x = cmd.x[W-1:0]` (R38). -/
def operand (w : Width) (x : Field64) : BitVec w.bits :=
  x.setWidth w.bits

/-- `lane_i(x) = x[8i+7 : 8i]` (R7, R27). -/
def lane {W : Nat} (x : BitVec W) (i : Nat) : Byte :=
  x.extractLsb' (8 * i) 8

/-- `any_lane(x, P)`: some lane of the word satisfies `P` (R10). A word of `W` bits has `W / 8`
lanes. -/
def anyLane {W : Nat} (x : BitVec W) (P : Byte → Bool) : Bool :=
  (List.range (W / 8)).any fun i => P (lane x i)

/-- Result format "word" (R45): `zext_64(v)`. -/
def wordResult {W : Nat} (v : BitVec W) : Field64 :=
  v.setWidth 64

/-- Result format "boolean" (R45): `zext_64(bool(c))`. -/
def boolResult (c : Bool) : Field64 :=
  if c then 1 else 0

/-- Result format "count" (R45): `zext_64(n)`. -/
def countResult (n : Nat) : Field64 :=
  BitVec.ofNat 64 n

end Sys2Proof.Machine
end

