-- ==== Sys2Proof/Syntax.lean ====
section
/-! DEFINITION. The abstract syntax: one constructor per row of spec/opcode_table.json
(30_encoding.md R41), each with the fields its operation reads (R43) and the width `w`. -/

namespace Sys2Proof

/-- The nine operations of the BTU (R41). A field an operation does not read is no argument of its
constructor (R43; DESIGN CHOICE, log 15). `x` is the 64-bit field of the command; `Instr.wellFormed` asks that it fits in
`W` bits, and the operand the operation uses is its low `W` bits (R38). -/
inductive Instr where
  /-- `BCAST`, opcode 0: the byte in every lane (40_broadcast.md R52) -/
  | bcast (w : Width) (c : Byte)
  /-- `HASZERO`, opcode 1: some lane is zero (41_zero_byte.md R57) -/
  | haszero (w : Width) (x : Field64)
  /-- `HASEQ`, opcode 2: some lane equals `a` (42_byte_equal.md R61) -/
  | haseq (w : Width) (x : Field64) (a : Byte)
  /-- `HASLT`, opcode 3: some lane is below `a` (43_byte_range.md R68) -/
  | haslt (w : Width) (x : Field64) (a : Byte)
  /-- `HASGT`, opcode 4: some lane is above `a` (43_byte_range.md R70) -/
  | hasgt (w : Width) (x : Field64) (a : Byte)
  /-- `HASBTW`, opcode 5: some lane lies in `[a, b)` (43_byte_range.md R72) -/
  | hasbtw (w : Width) (x : Field64) (a b : Byte)
  /-- `POPCNT`, opcode 6: the number of set bits (44_bitcount.md R80) -/
  | popcnt (w : Width) (p : Path) (x : Field64)
  /-- `CLZ`, opcode 7: the number of leading zero bits (44_bitcount.md R83) -/
  | clz (w : Width) (p : Path) (x : Field64)
  /-- `CTZ`, opcode 8: the number of trailing zero bits (44_bitcount.md R86) -/
  | ctz (w : Width) (p : Path) (x : Field64)
deriving DecidableEq, Repr

end Sys2Proof
end

