-- ==== Sys2Proof/Config.lean ====
section
/-! DEFINITION. What an instance of the BTU fixes (00_scope.md R6) and the free values (R11).
Neither opaque constant has a body: nothing in Lean evaluates it or proves a value of it. -/

namespace Sys2Proof

/-- `CFG`, the parameter record of R6. The one open parameter is `FAST_PATH_PRESENT`. -/
structure Cfg where
  /-- the instance contains the fast-path circuits of `POPCNT`, `CLZ` and `CTZ` (R6, R75) -/
  fastPathPresent : Bool
deriving DecidableEq, Repr

/-- The value of `FAST_PATH_PRESENT` a machine starts with. OPEN in the spec (R6; 92_eei_decisions.md
D6), so no value is picked here. DESIGN CHOICE (log 5), safe. -/
opaque Config.fastPathPresent : Bool

/-- What one draw of `ANY_64` may depend on: how many draws came before it, the configuration, the
command on the port and the operation that draws. R11: "two transactions with the same command may
return different draws, and the fast path and the fallback may differ". -/
structure Draw where
  /-- how many `ANY_64` values were drawn before this one -/
  nth : Nat
  /-- the configuration of the instance -/
  cfg : Cfg
  /-- the command on the command port -/
  cmd : Command
  /-- the operation whose precondition is violated -/
  op : Instr
deriving DecidableEq, Repr

/-- `ANY_64` (R11): an unspecified 64-bit value, one for each draw. DESIGN CHOICE (log 4). -/
opaque Config.any64 : Draw → Field64

end Sys2Proof
end

