-- ==== Sys2Proof/Machine/State.lean ====
section
/-! DEFINITION. The state a step reads and writes. The BTU itself stores no bit (10_state.md R15 to
R19): State holds the value the host drives on the command port (R22), the parameter
`FAST_PATH_PRESENT` (00_scope.md R6), the response the host read last (R20) and the model's own count of
`ANY_64` draws (R11). The response port is NOT a field: it is the function `State.rsp` of the command
port (R25; Machine/Port.lean). -/

namespace Sys2Proof.Machine

/-- The response word `RSP[65:0]` by its three fields (R21). -/
structure Response where
  /-- `R = RSP[63:0]`, the result -/
  r : Field64
  /-- `PV = RSP[64]`, precondition violated -/
  pv : Bool
  /-- `ILL = RSP[65]`, illegal command -/
  ill : Bool
deriving DecidableEq, Repr

/-- What the machine, its command port and the host's last reading hold. -/
structure State where
  /-- the build parameters (R6); no step changes them -/
  cfg : Cfg
  /-- the value on the input port `CMD[95:0]`, driven by the host (R22) -/
  cmd : Command
  /-- the host's record, not the BTU's state: the response it read in the last transaction (R20,
  R111; log 2). No operation reads it (R17). -/
  read : Response
  /-- the model's own field, not the spec's: how many `ANY_64` values were drawn (R11; log 4) -/
  draws : Nat
deriving DecidableEq, Repr

/-- Why a step stops with a fault. The BTU raises no exception and every transaction completes
(60_exceptions.md R93, R94), so there is NO fault: the type has no constructor, nothing raises one,
and that is safe (log 8). -/
inductive Fault where
deriving DecidableEq, Repr

/-- Why a step refuses. -/
inductive Refusal where
  /-- raised only by an arm of `exec` whose instruction has no meaning yet; no arm does. Safe: a claim
  about such an instruction could not be proved. -/
  | notModelled (mnemonic : String)
deriving DecidableEq, Repr

/-- The state before the first transaction. The spec gives no reset value, because nothing is stored
(R25, R107). `cfg` takes no chosen value (log 5). `cmd`, `read` and `draws`: DESIGN CHOICE, unsafe
(log 3); `read` is what the response port shows while `cmd` is zero (R25). -/
def State.reset : State where
  cfg := ⟨Config.fastPathPresent⟩
  cmd := 0
  read := ⟨0, false, false⟩
  draws := 0

end Sys2Proof.Machine
end

