-- ==== Sys2Proof/Machine/Ops.lean ====
section
/-! DEFINITION. The named operations over the ports: what the host does (present a command), the
responses the unit can form (00_scope.md R10 `respond`; 10_state.md R21) and how a transaction ends
(R20). The BTU has no exception to take and none to return from (60_exceptions.md R93, R99, R100); the
two responses that report something wrong with a command are `illegalResponse` and `violated`. -/

namespace Sys2Proof.Machine

/-- The host presents a command on the command port (R20). The response port follows at once, being a
function of it (`State.rsp`, R25). -/
def State.present (s : State) (c : Command) : State :=
  { s with cmd := c }

/-- The draw of `ANY_64` that an operation would make now (R11; log 4). -/
def State.draw (s : State) (i : Instr) : Draw :=
  ⟨s.draws, s.cfg, s.cmd, i⟩

/-- The response word on `RSP[65:0]`: `RSP = {ILL, PV, R}` (R10, R21). -/
def Response.word (p : Response) : BitVec 66 :=
  BitVec.ofBool p.ill ++ BitVec.ofBool p.pv ++ p.r

/-- The response with this word on `RSP[65:0]` (R21). -/
def Response.ofWord (v : BitVec 66) : Response where
  r := v.extractLsb' 0 64
  pv := v.getLsbD 64
  ill := v.getLsbD 65

/-- A legal command whose preconditions hold: `respond(r, 0, 0)` (R94). -/
def completed (r : Field64) : Response :=
  ⟨r, false, false⟩

/-- A legal command that violates a precondition: `respond(ANY_64, 1, 0)` (R96). `R` is a free value
(log 4). -/
def violated (d : Draw) : Response :=
  ⟨Config.any64 d, true, false⟩

/-- A command that spells no operation: `respond(0, 0, 1)` (R42, R95). -/
def illegalResponse : Response :=
  ⟨0, false, true⟩

/-- An operation with a precondition: `none` where it is violated, else the result. -/
def checked (d : Draw) : Option Field64 → Response
  | some r => completed r
  | none => violated d

/-- A transaction ends: the host has read this response (R20, R111), and nothing else has changed but
the model's draw count, which advances exactly when `R` was a draw of `ANY_64` (log 4). -/
def conclude (s : State) (p : Response) : Host.Outcome State Fault Refusal :=
  .next { s with read := p, draws := s.draws + p.pv.toNat }

end Sys2Proof.Machine
end

