-- ==== Sys2Proof/Machine/Broadcast.lean ====
section
/-! DEFINITION. The broadcast_multiplier (40_broadcast.md) and the constants of width `W`
(00_scope.md R9). Word arithmetic is `BitVec` arithmetic, modulo `2^W` (R8). -/

namespace Sys2Proof.Machine

/-- `ONES_W = 2^W - 1` (R9). -/
def ones (W : Nat) : BitVec W :=
  BitVec.allOnes W

/-- The repunit `REP_W = ONES_W / 0xFF` (R9, R54). -/
def rep (W : Nat) : BitVec W :=
  ones W / BitVec.ofNat W 0xFF

/-- `bc_W(c) = c *_W REP_W`: the byte in every lane (R51). -/
def bc (W : Nat) (c : Byte) : BitVec W :=
  c.setWidth W * rep W

/-- `H_W = bc_W(0x80)`, the high bit of every lane (R9). -/
def highBits (W : Nat) : BitVec W :=
  bc W 0x80

/-- `L_W = bc_W(0x7F)`, the low seven bits of every lane (R9). -/
def lowBits (W : Nat) : BitVec W :=
  bc W 0x7F

/-- The response of `BCAST` (R52). -/
def respBcast (w : Width) (c : Byte) : Response :=
  completed (wordResult (bc w.bits c))

/-- `BCAST` (R52). -/
def execBcast (w : Width) (c : Byte) (s : State) : Host.Outcome State Fault Refusal :=
  conclude s (respBcast w c)

end Sys2Proof.Machine
end

