-- ==== Sys2Proof/Machine/Flags.lean ====
section
/-! DEFINITION. The conditions of the status bit `PV` (60_exceptions.md R96). The condition of `ILL`
(R95) is the decoder's refusal (Decode.lean), since legality is checked before anything else (R97).
The BTU keeps no flag from one transaction to the next (10_state.md R17). -/

namespace Sys2Proof.Machine

/-- `HASBTW` violates its precondition: `a > 127`, or `b > 128`, or `a >= b` (R72, R96). -/
def violatesBounds (a b : Byte) : Bool :=
  a.toNat > 127 || b.toNat > 128 || a.toNat ≥ b.toNat

/-- `CLZ` and `CTZ` violate their precondition: the `W`-bit operand is zero (R83, R86, R96). -/
def violatesNonzero {W : Nat} (x : BitVec W) : Bool :=
  x = 0

end Sys2Proof.Machine
end

