-- ==== Sys2Proof/Machine/BitCount.lean ====
section
/-! DEFINITION. The popcount_unit, clz_unit and ctz_unit (44_bitcount.md): path selection (R75), the
reference functions the fast path computes (R77), the fallbacks (R79, R82, R85) and the operations. -/

namespace Sys2Proof.Machine

/-- `path(CFG, cmd)` (R75): a request for a fast path the instance lacks is answered by the fallback
(R76). -/
def selectPath (cfg : Cfg) : Path → Path
  | .fallback => .fallback
  | .fast => if cfg.fastPathPresent then .fast else .fallback

/-- `popcount_ref_W(x)`: the number of `i` in `0 .. W-1` with `x[i] = 1` (R77). -/
def popcountRef {W : Nat} (x : BitVec W) : Nat :=
  (List.range W).countP fun i => x.getLsbD i

/-- The indices of the set bits of a nonzero word are not empty, from bit 0 upward. -/
theorem lowest_isSome {W : Nat} {x : BitVec W} (h : x ≠ 0) :
    ((List.range W).find? fun i => x.getLsbD i).isSome := by
  by_contra hn
  refine h (BitVec.eq_of_getLsbD_eq fun i hi => ?_)
  simp only [List.find?_isSome, List.mem_range, not_exists, not_and, Bool.not_eq_true] at hn
  simpa using hn i hi

/-- The same, from bit `W-1` downward. -/
theorem highest_isSome {W : Nat} {x : BitVec W} (h : x ≠ 0) :
    ((List.range W).reverse.find? fun i => x.getLsbD i).isSome := by
  have := lowest_isSome h
  simp only [List.find?_isSome, List.mem_reverse] at this ⊢
  exact this

/-- `min{ i | x[i] = 1 }`, for `x != 0` only (R77). -/
def lowestSet {W : Nat} (x : BitVec W) (h : x ≠ 0) : Nat :=
  ((List.range W).find? fun i => x.getLsbD i).get (lowest_isSome h)

/-- `max{ i | x[i] = 1 }`, for `x != 0` only (R77). -/
def highestSet {W : Nat} (x : BitVec W) (h : x ≠ 0) : Nat :=
  ((List.range W).reverse.find? fun i => x.getLsbD i).get (highest_isSome h)

/-- `clz_ref_W(x) = W - 1 - max{ i | x[i] = 1 }`, for `x != 0` only (R77). -/
def clzRef {W : Nat} (x : BitVec W) (h : x ≠ 0) : Nat :=
  W - 1 - highestSet x h

/-- `ctz_ref_W(x) = min{ i | x[i] = 1 }`, for `x != 0` only (R77). -/
def ctzRef {W : Nat} (x : BitVec W) (h : x ≠ 0) : Nat :=
  lowestSet x h

/-- The mask `ONES_W / d` of R79: `M1_W`, `M2_W`, `M4_W` are those of 3, 5 and 17. -/
def maskBy (W d : Nat) : BitVec W :=
  ones W / BitVec.ofNat W d

/-- Step `s1` of R79: every 2-bit field holds the count of its two bits. -/
def pairSums {W : Nat} (x : BitVec W) : BitVec W :=
  x - ((x >>> 1) &&& maskBy W 3)

/-- Step `s2` of R79: every 4-bit field holds the count of its four bits. -/
def nibbleSums {W : Nat} (s1 : BitVec W) : BitVec W :=
  (s1 &&& maskBy W 5) + ((s1 >>> 2) &&& maskBy W 5)

/-- Step `s3` of R79: every byte lane holds the count of its eight bits. -/
def byteSums {W : Nat} (s2 : BitVec W) : BitVec W :=
  (s2 + (s2 >>> 4)) &&& maskBy W 17

/-- `popcount_fb_W(x)` (R79). -/
def popcountFallback {W : Nat} (x : BitVec W) : BitVec W :=
  (byteSums (nibbleSums (pairSums x)) * rep W) >>> (W - 8)

/-- The smearing shifts of R82: the last one only when `W = 64`. -/
def smearShifts (W : Nat) : List Nat :=
  [1, 2, 4, 8, 16] ++ if W = 64 then [32] else []

/-- `y6` of R82: every bit below the highest set bit is filled. -/
def smear {W : Nat} (x : BitVec W) : BitVec W :=
  (smearShifts W).foldl (fun y n => y ||| (y >>> n)) x

/-- `clz_fb_W(x) = popcount_fb_W(not_W(y6))` (R82), by the popcount FALLBACK (R90). -/
def clzFallback {W : Nat} (x : BitVec W) : BitVec W :=
  popcountFallback (~~~(smear x))

/-- `low = x & neg_W(x)` of R85: the lowest set bit alone. -/
def isolateLowest {W : Nat} (x : BitVec W) : BitVec W :=
  x &&& -x

/-- `ctz_fb_W(x) = popcount_fb_W(low -_W 1)` (R85), by the popcount FALLBACK (R90). -/
def ctzFallback {W : Nat} (x : BitVec W) : BitVec W :=
  popcountFallback (isolateLowest x - 1)

/-- The count of `POPCNT` on a path (R80). -/
def popcountOn {W : Nat} (p : Path) (x : BitVec W) : Field64 :=
  match p with
  | .fast => countResult (popcountRef x)
  | .fallback => wordResult (popcountFallback x)

/-- The count of `CLZ` on a path, for `x != 0` only (R83). -/
def clzOn {W : Nat} (p : Path) (x : BitVec W) (h : x ≠ 0) : Field64 :=
  match p with
  | .fast => countResult (clzRef x h)
  | .fallback => wordResult (clzFallback x)

/-- The count of `CTZ` on a path, for `x != 0` only (R86). -/
def ctzOn {W : Nat} (p : Path) (x : BitVec W) (h : x ≠ 0) : Field64 :=
  match p with
  | .fast => countResult (ctzRef x h)
  | .fallback => wordResult (ctzFallback x)

/-- The result of `CLZ`; none where its precondition is violated, on either path (R83, R88). -/
def clzChecked {W : Nat} (p : Path) (x : BitVec W) : Option Field64 :=
  if h : violatesNonzero x then none
  else some (clzOn p x (by simpa [violatesNonzero] using h))

/-- The result of `CTZ`; none where its precondition is violated, on either path (R86, R88). -/
def ctzChecked {W : Nat} (p : Path) (x : BitVec W) : Option Field64 :=
  if h : violatesNonzero x then none
  else some (ctzOn p x (by simpa [violatesNonzero] using h))

/-- The response of `POPCNT` (R80). -/
def respPopcnt (w : Width) (p : Path) (x : Field64) (cfg : Cfg) : Response :=
  completed (popcountOn (selectPath cfg p) (operand w x))

/-- `POPCNT` (R80). -/
def execPopcnt (w : Width) (p : Path) (x : Field64) (s : State) : Host.Outcome State Fault Refusal :=
  conclude s (respPopcnt w p x s.cfg)

/-- The response of `CLZ` (R83). -/
def respClz (w : Width) (p : Path) (x : Field64) (d : Draw) : Response :=
  checked d (clzChecked (selectPath d.cfg p) (operand w x))

/-- `CLZ` (R83). -/
def execClz (w : Width) (p : Path) (x : Field64) (s : State) : Host.Outcome State Fault Refusal :=
  conclude s (respClz w p x (s.draw (.clz w p x)))

/-- The response of `CTZ` (R86). -/
def respCtz (w : Width) (p : Path) (x : Field64) (d : Draw) : Response :=
  checked d (ctzChecked (selectPath d.cfg p) (operand w x))

/-- `CTZ` (R86). -/
def execCtz (w : Width) (p : Path) (x : Field64) (s : State) : Host.Outcome State Fault Refusal :=
  conclude s (respCtz w p x (s.draw (.ctz w p x)))

end Sys2Proof.Machine
end

