-- ==== Sys2Proof/Machine/ZeroByte.lean ====
section
/-! DEFINITION. The zero_byte_detector (41_zero_byte.md). -/

namespace Sys2Proof.Machine

/-- `Z_W(x) = (x -_W bc_W(1)) & not_W(x) & bc_W(0x80)` (R56). -/
def zeroWord {W : Nat} (x : BitVec W) : BitVec W :=
  (x - bc W 1) &&& ~~~x &&& bc W 0x80

/-- `haszero_W(x) = bool(Z_W(x) != 0)` (R56). -/
def haszero {W : Nat} (x : BitVec W) : Bool :=
  zeroWord x != 0

/-- The response of `HASZERO` (R57). -/
def respHaszero (w : Width) (x : Field64) : Response :=
  completed (boolResult (haszero (operand w x)))

/-- `HASZERO` (R57). -/
def execHaszero (w : Width) (x : Field64) (s : State) : Host.Outcome State Fault Refusal :=
  conclude s (respHaszero w x)

end Sys2Proof.Machine
end

