-- ==== Sys2Proof/Machine/ByteEqual.lean ====
section
/-! DEFINITION. The byte_equality_predicate (42_byte_equal.md). -/

namespace Sys2Proof.Machine

/-- `haseq_W(x, a) = haszero_W(x ^ bc_W(a))` (R60). -/
def haseq {W : Nat} (x : BitVec W) (a : Byte) : Bool :=
  haszero (x ^^^ bc W a)

/-- The response of `HASEQ` (R61). -/
def respHaseq (w : Width) (x : Field64) (a : Byte) : Response :=
  completed (boolResult (haseq (operand w x) a))

/-- `HASEQ` (R61). -/
def execHaseq (w : Width) (x : Field64) (a : Byte) (s : State) : Host.Outcome State Fault Refusal :=
  conclude s (respHaseq w x a)

end Sys2Proof.Machine
end

