-- ==== Sys2Proof/Machine/ByteRange.lean ====
section
/-! DEFINITION. The byte_range_predicate (43_byte_range.md). The bias constants are formed from the
byte parameters before the broadcast (R65, R71), as 8-bit subtractions and additions that do not wrap
inside the ranges the rules give (R55). The helpers are written as total formulas; no command reaches
them outside their ranges and nothing is stated about them there (R74; log 10). -/

namespace Sys2Proof.Machine

/-- `LT128_W(x, a) = (x -_W bc_W(a)) & not_W(x) & bc_W(0x80)`, for `a <= 128` (R63). -/
def lt128 {W : Nat} (x : BitVec W) (a : Byte) : BitVec W :=
  (x - bc W a) &&& ~~~x &&& bc W 0x80

/-- `GT127_W(x, a) = ((x +_W bc_W(127 - a)) | x) & bc_W(0x80)`, for `a <= 127` (R65). -/
def gt127 {W : Nat} (x : BitVec W) (a : Byte) : BitVec W :=
  ((x + bc W (127 - a)) ||| x) &&& bc W 0x80

/-- `haslt_W(x, a)` (R67). -/
def haslt {W : Nat} (x : BitVec W) (a : Byte) : Bool :=
  if a.toNat < 128 then lt128 x a != 0 else gt127 (~~~x) (255 - a) != 0

/-- `hasgt_W(x, a)` (R69). -/
def hasgt {W : Nat} (x : BitVec W) (a : Byte) : Bool :=
  if a.toNat ≥ 127 then lt128 (~~~x) (255 - a) != 0 else gt127 x a != 0

/-- `B_W(x, a, b)`, for `a <= 127`, `b <= 128`, `a < b` (R71). -/
def betweenWord {W : Nat} (x : BitVec W) (a b : Byte) : BitVec W :=
  let t := x &&& lowBits W
  (bc W (127 + b) - t) &&& ~~~x &&& (t + bc W (128 - a)) &&& highBits W

/-- `hasbtw_W(x, a, b) = bool(B_W(x, a, b) != 0)` (R71). -/
def hasbtw {W : Nat} (x : BitVec W) (a b : Byte) : Bool :=
  betweenWord x a b != 0

/-- The result of `HASBTW`; none where its precondition is violated (R72). -/
def hasbtwChecked {W : Nat} (x : BitVec W) (a b : Byte) : Option Field64 :=
  if violatesBounds a b then none else some (boolResult (hasbtw x a b))

/-- The response of `HASLT` (R68). -/
def respHaslt (w : Width) (x : Field64) (a : Byte) : Response :=
  completed (boolResult (haslt (operand w x) a))

/-- `HASLT` (R68). -/
def execHaslt (w : Width) (x : Field64) (a : Byte) (s : State) : Host.Outcome State Fault Refusal :=
  conclude s (respHaslt w x a)

/-- The response of `HASGT` (R70). -/
def respHasgt (w : Width) (x : Field64) (a : Byte) : Response :=
  completed (boolResult (hasgt (operand w x) a))

/-- `HASGT` (R70). -/
def execHasgt (w : Width) (x : Field64) (a : Byte) (s : State) : Host.Outcome State Fault Refusal :=
  conclude s (respHasgt w x a)

/-- The response of `HASBTW` (R72). -/
def respHasbtw (w : Width) (x : Field64) (a b : Byte) (d : Draw) : Response :=
  checked d (hasbtwChecked (operand w x) a b)

/-- `HASBTW` (R72). -/
def execHasbtw (w : Width) (x : Field64) (a b : Byte) (s : State) : Host.Outcome State Fault Refusal :=
  conclude s (respHasbtw w x a b (s.draw (.hasbtw w x a b)))

end Sys2Proof.Machine
end

