-- ==== Sys2Proof/Machine/Dispatch.lean ====
section
/-! DEFINITION. One arm per operation (30_encoding.md R46). -/

namespace Sys2Proof.Machine

def exec (i : Instr) (s : State) : Host.Outcome State Fault Refusal :=
  match i with
  | .bcast w c => Sys2Proof.Machine.execBcast w c s
  | .haszero w x => Sys2Proof.Machine.execHaszero w x s
  | .haseq w x a => Sys2Proof.Machine.execHaseq w x a s
  | .haslt w x a => Sys2Proof.Machine.execHaslt w x a s
  | .hasgt w x a => Sys2Proof.Machine.execHasgt w x a s
  | .hasbtw w x a b => Sys2Proof.Machine.execHasbtw w x a b s
  | .popcnt w p x => Sys2Proof.Machine.execPopcnt w p x s
  | .clz w p x => Sys2Proof.Machine.execClz w p x s
  | .ctz w p x => Sys2Proof.Machine.execCtz w p x s

end Sys2Proof.Machine
end

