-- ==== Sys2Proof/WellFormed.lean ====
section
/-! DEFINITION. When an instruction is well formed: `x` must fit in `W` bits (30_encoding.md R47).
Byte parameters fit by their type, and the preconditions of `HASBTW`, `CLZ` and `CTZ` are NOT
well-formedness: such a line assembles and its transaction reports `PV` (R47). -/

namespace Sys2Proof

/-- `x` fits in `W` bits (R47). -/
def Width.fits : Width → Field64 → Bool
  | .w32, x => x.toNat < 2 ^ 32
  | .w64, _ => true

/-- The check the assembler makes before it writes a command (R47). -/
def Instr.wellFormed : Instr → Bool
  | .bcast _ _ => true
  | .haszero w x => w.fits x
  | .haseq w x _ => w.fits x
  | .haslt w x _ => w.fits x
  | .hasgt w x _ => w.fits x
  | .hasbtw w x _ _ => w.fits x
  | .popcnt w _ x => w.fits x
  | .clz w _ x => w.fits x
  | .ctz w _ x => w.fits x

end Sys2Proof
end

