-- ==== Sys2Proof/Decode.lean ====
section
/-! DEFINITION. The fields of format `C` (30_encoding.md R36), the decoder (R41, R42, R46), the
encoder (R43, R50) and the table's way of giving a command as a number. The BTU has no memory and
fetches nothing (10_state.md R16, 20_memory.md R26): a command is one 96-bit value. -/

namespace Sys2Proof

/-- Why a command spells no operation (R42, R95). The response does not say which; the names are the
model's, and reserved bits are named before the opcode. DESIGN CHOICE (log 6), safe. -/
inductive Illegal where
  /-- `rsv0` or `rsv1` is nonzero -/
  | reservedBits (rsv0 : BitVec 2) (rsv1 : BitVec 8)
  /-- `op` is 9 to 15 -/
  | reservedOpcode (op : BitVec 4)
deriving DecidableEq, Repr

/-- The fields of format `C` (R36). -/
structure Fields where
  /-- `CMD[3:0]`, operation code -/
  op : BitVec 4
  /-- `CMD[4]`, word width -/
  w : BitVec 1
  /-- `CMD[5]`, path request -/
  p : BitVec 1
  /-- `CMD[7:6]`, reserved -/
  rsv0 : BitVec 2
  /-- `CMD[15:8]`, first byte parameter -/
  a : Byte
  /-- `CMD[23:16]`, second byte parameter -/
  b : Byte
  /-- `CMD[31:24]`, reserved -/
  rsv1 : BitVec 8
  /-- `CMD[95:32]`, word operand field -/
  x : Field64
deriving DecidableEq, Repr

/-- The fields of a command (R36). -/
def Fields.ofCommand (c : Command) : Fields where
  op := c.extractLsb' 0 4
  w := c.extractLsb' 4 1
  p := c.extractLsb' 5 1
  rsv0 := c.extractLsb' 6 2
  a := c.extractLsb' 8 8
  b := c.extractLsb' 16 8
  rsv1 := c.extractLsb' 24 8
  x := c.extractLsb' 32 64

/-- The command with these fields: `CMD = {x, header}`, the picture of R36, most significant first. -/
def Fields.command (f : Fields) : Command :=
  f.x ++ f.rsv1 ++ f.b ++ f.a ++ f.rsv0 ++ f.p ++ f.w ++ f.op

/-- The width selected by field `w` (R37). -/
def Width.ofBit (w : BitVec 1) : Width :=
  if w = 1#1 then .w64 else .w32

/-- Field `w` of a width (R37). -/
def Width.toBit : Width → BitVec 1
  | .w32 => 0#1
  | .w64 => 1#1

/-- The path requested by field `p` (R40). -/
def Path.ofBit (p : BitVec 1) : Path :=
  if p = 1#1 then .fast else .fallback

/-- Field `p` of a path request (R40). -/
def Path.toBit : Path → BitVec 1
  | .fallback => 0#1
  | .fast => 1#1

/-- `cmd.x` with the bits above `W` cleared. Those bits are ignored (R38), so the decoder does not
pass them on. -/
def Width.trim : Width → Field64 → Field64
  | .w32, x => (x.setWidth 32).setWidth 64
  | .w64, x => x

/-- The operation selected by `op` (R41), with the fields it reads (R43). -/
def Fields.instr (f : Fields) : Option Instr :=
  let w := Width.ofBit f.w
  let p := Path.ofBit f.p
  let x := w.trim f.x
  match f.op.toNat with
  | 0 => some (.bcast w f.a)
  | 1 => some (.haszero w x)
  | 2 => some (.haseq w x f.a)
  | 3 => some (.haslt w x f.a)
  | 4 => some (.hasgt w x f.a)
  | 5 => some (.hasbtw w x f.a f.b)
  | 6 => some (.popcnt w p x)
  | 7 => some (.clz w p x)
  | 8 => some (.ctz w p x)
  | _ => none

/-- The decoder (R41, R42), total on all `2^96` commands: the operation a legal command spells, or the
name of what makes the command illegal. -/
def decode (c : Command) : Except Illegal Instr :=
  let f := Fields.ofCommand c
  if f.rsv0 ≠ 0 ∨ f.rsv1 ≠ 0 then .error (.reservedBits f.rsv0 f.rsv1)
  else
    match f.instr with
    | some i => .ok i
    | none => .error (.reservedOpcode f.op)

/-- The opcode of an operation (R41). -/
def Instr.opcode : Instr → BitVec 4
  | .bcast _ _ => 0
  | .haszero _ _ => 1
  | .haseq _ _ _ => 2
  | .haslt _ _ _ => 3
  | .hasgt _ _ _ => 4
  | .hasbtw _ _ _ _ => 5
  | .popcnt _ _ _ => 6
  | .clz _ _ _ => 7
  | .ctz _ _ _ => 8

/-- The canonical fields of an instruction: every field it does not read is zero (R43). -/
def Instr.fields (i : Instr) : Fields :=
  let zero : Fields := ⟨i.opcode, 0, 0, 0, 0, 0, 0, 0⟩
  match i with
  | .bcast w c => { zero with w := w.toBit, a := c }
  | .haszero w x => { zero with w := w.toBit, x := x }
  | .haseq w x a => { zero with w := w.toBit, a := a, x := x }
  | .haslt w x a => { zero with w := w.toBit, a := a, x := x }
  | .hasgt w x a => { zero with w := w.toBit, a := a, x := x }
  | .hasbtw w x a b => { zero with w := w.toBit, a := a, b := b, x := x }
  | .popcnt w p x => { zero with w := w.toBit, p := p.toBit, x := x }
  | .clz w p x => { zero with w := w.toBit, p := p.toBit, x := x }
  | .ctz w p x => { zero with w := w.toBit, p := p.toBit, x := x }

/-- The encoder: the canonical command of an instruction (R43, R50). -/
def encode (i : Instr) : Command :=
  i.fields.command

/-- The command whose bits 0 to `nbits - 1` are those of `w` and whose other bits are 0, numbered as
spec/opcode_table.json numbers them: bit 0 is `CMD[0]`. A command has 96 bits (R35); a bit of `w`
above bit 95 has no place in it and is dropped. DESIGN CHOICE (log 16), safe. -/
def commandOfTableWord (nbits w : Nat) : Command :=
  BitVec.ofNat 96 (w % 2 ^ nbits)

/-- The instruction the decoder reads from a table word; none where the decoder refuses. -/
def decodeTableWord (nbits w : Nat) : Option Instr :=
  match decode (commandOfTableWord nbits w) with
  | .ok i => some i
  | .error _ => none

end Sys2Proof
end

