-- ==== Sys2Proof/Machine/Port.lean ====
section
/-! DEFINITION. The response port (10_state.md R22, R25; 70_reset_and_hazards.md R108). It is
combinational: nothing is stored for it, and in EVERY state it shows `exec(CFG, CMD)` of the value on
the command port, from reset on and right after the host presents a command, without a step. -/

namespace Sys2Proof.Machine

/-- The response of an operation (30_encoding.md R46), from the configuration and, where `R` is
`ANY_64`, the draw that would be made now. -/
def responseOf (s : State) (i : Instr) : Response :=
  match i with
  | .bcast w c => respBcast w c
  | .haszero w x => respHaszero w x
  | .haseq w x a => respHaseq w x a
  | .haslt w x a => respHaslt w x a
  | .hasgt w x a => respHasgt w x a
  | .hasbtw w x a b => respHasbtw w x a b (s.draw (.hasbtw w x a b))
  | .popcnt w p x => respPopcnt w p x s.cfg
  | .clz w p x => respClz w p x (s.draw (.clz w p x))
  | .ctz w p x => respCtz w p x (s.draw (.ctz w p x))

/-- The value on the output port `RSP[65:0]` (R22, R25): a function of the command port, checked for
legality first (R97). It does not read `State.read`. -/
def State.rsp (s : State) : Response :=
  match decode s.cmd with
  | .ok i => responseOf s i
  | .error _ => illegalResponse

end Sys2Proof.Machine
end

