-- ==== Sys2Proof/Machine/Step.lean ====
section
/-! DEFINITION. The step: one transaction (10_state.md R20). -/

namespace Sys2Proof.Machine

/-- One transaction (R20, R46): sample the command on the port whole (20_memory.md R30), check that it
is legal first (60_exceptions.md R97), and answer it: the host has then read what the response port
showed (`State.rsp`, 70_reset_and_hazards.md R111). The command stays on the port until the host
presents another, so a further step answers the same command again (R23). -/
def step (s : State) : Host.Outcome State Fault Refusal :=
  match decode s.cmd with
  | .ok i => exec i s
  | .error _ => conclude s illegalResponse

/-- The host presents a table word on the command port, so that the very next step answers it. -/
def State.withFetchWord (s : State) (nbits w : Nat) : State :=
  s.present (commandOfTableWord nbits w)

end Sys2Proof.Machine
end

