-- ==== Sys2Proof/Machine/Assembler.lean ====
section
/-! DEFINITION. The assembler of 30_encoding.md R47 and the listing notation's operands (R48). Both are
the host's; the BTU sees only the command a line becomes. What R47 leaves open of the text (more
spaces, letter case of hexadecimal digits, leading zeros) is a DESIGN CHOICE (log 11). -/

namespace Sys2Proof.Machine

/-- The nine mnemonics (R41, R47). -/
inductive Mnemonic where
  | bcast
  | haszero
  | haseq
  | haslt
  | hasgt
  | hasbtw
  | popcnt
  | clz
  | ctz
deriving DecidableEq, Repr

/-- The lower-case mnemonic of R47. -/
def Mnemonic.text : Mnemonic → List Char
  | .bcast => "bcast".toList
  | .haszero => "haszero".toList
  | .haseq => "haseq".toList
  | .haslt => "haslt".toList
  | .hasgt => "hasgt".toList
  | .hasbtw => "hasbtw".toList
  | .popcnt => "popcnt".toList
  | .clz => "clz".toList
  | .ctz => "ctz".toList

/-- Every mnemonic (R41). -/
def mnemonics : List Mnemonic :=
  [.bcast, .haszero, .haseq, .haslt, .hasgt, .hasbtw, .popcnt, .clz, .ctz]

/-- A line with its operands as numbers (R47). `suffix` says that `.f` is written. -/
structure AsmLine where
  /-- the mnemonic -/
  mnemonic : Mnemonic
  /-- the width, written `32` or `64` -/
  width : Width
  /-- `.f` is written -/
  suffix : Bool
  /-- the operands, in the order written -/
  operands : List Nat
deriving DecidableEq, Repr

/-- An operand as written in a listing: a number, or `$k`, the result of command `k` (R48). -/
inductive ListedOperand where
  /-- an unsigned number -/
  | number (n : Nat)
  /-- `$k` -/
  | result (k : Nat)
deriving DecidableEq, Repr

/-- A line of a listing (R48). -/
structure ListedLine where
  /-- the mnemonic -/
  mnemonic : Mnemonic
  /-- the width -/
  width : Width
  /-- `.f` is written -/
  suffix : Bool
  /-- the operands, in the order written -/
  operands : List ListedOperand
deriving DecidableEq, Repr

/-- Why the assembler rejects a line. -/
inductive AsmError where
  /-- the text is not of the form of R47 -/
  | notALine
  /-- `.f` on an operation other than `popcnt`, `clz`, `ctz` -/
  | suffixNotAllowed
  /-- the operands are not those of the operation's form -/
  | wrongOperands
  /-- `x` does not fit in `W` bits -/
  | wordTooWide
  /-- a byte parameter does not fit in 8 bits -/
  | byteTooWide
  /-- `$k` where no `x` stands, or of a command not before this line -/
  | noSuchResult
deriving DecidableEq, Repr

/-- A word operand must fit in `W` bits (R47). -/
def asmWord (w : Width) (n : Nat) : Except AsmError Field64 :=
  if n < 2 ^ w.bits then .ok (BitVec.ofNat 64 n) else .error .wordTooWide

/-- A byte parameter must fit in 8 bits (R47). -/
def asmByte (n : Nat) : Except AsmError Byte :=
  if n < 256 then .ok (BitVec.ofNat 8 n) else .error .byteTooWide

/-- The path a line requests: `.f` sets `p = 1` (R47). -/
def AsmLine.path (l : AsmLine) : Path :=
  if l.suffix then .fast else .fallback

/-- `.f` is allowed on `popcnt`, `clz` and `ctz` only (R47). -/
def Mnemonic.allowsSuffix : Mnemonic → Bool
  | .popcnt => true
  | .clz => true
  | .ctz => true
  | _ => false

/-- The forms of R47, operands as numbers. The preconditions of `hasbtw`, `clz` and `ctz` are not
checked: such a line assembles. -/
def AsmLine.form (l : AsmLine) : Except AsmError Instr :=
  match l.mnemonic, l.operands with
  | .bcast, [c] => do return .bcast l.width (← asmByte c)
  | .haszero, [x] => do return .haszero l.width (← asmWord l.width x)
  | .haseq, [x, a] => do return .haseq l.width (← asmWord l.width x) (← asmByte a)
  | .haslt, [x, a] => do return .haslt l.width (← asmWord l.width x) (← asmByte a)
  | .hasgt, [x, a] => do return .hasgt l.width (← asmWord l.width x) (← asmByte a)
  | .hasbtw, [x, a, b] => do
    return .hasbtw l.width (← asmWord l.width x) (← asmByte a) (← asmByte b)
  | .popcnt, [x] => do return .popcnt l.width l.path (← asmWord l.width x)
  | .clz, [x] => do return .clz l.width l.path (← asmWord l.width x)
  | .ctz, [x] => do return .ctz l.width l.path (← asmWord l.width x)
  | _, _ => .error .wrongOperands

/-- The instruction a line stands for, or why the assembler rejects it (R47). -/
def AsmLine.assemble (l : AsmLine) : Except AsmError Instr :=
  if l.suffix && !l.mnemonic.allowsSuffix then .error .suffixNotAllowed else l.form

/-- The line of an instruction: every command is one line and every line one command (R47, R49). -/
def AsmLine.ofInstr : Instr → AsmLine
  | .bcast w c => ⟨.bcast, w, false, [c.toNat]⟩
  | .haszero w x => ⟨.haszero, w, false, [x.toNat]⟩
  | .haseq w x a => ⟨.haseq, w, false, [x.toNat, a.toNat]⟩
  | .haslt w x a => ⟨.haslt, w, false, [x.toNat, a.toNat]⟩
  | .hasgt w x a => ⟨.hasgt, w, false, [x.toNat, a.toNat]⟩
  | .hasbtw w x a b => ⟨.hasbtw, w, false, [x.toNat, a.toNat, b.toNat]⟩
  | .popcnt w p x => ⟨.popcnt, w, p == .fast, [x.toNat]⟩
  | .clz w p x => ⟨.clz, w, p == .fast, [x.toNat]⟩
  | .ctz w p x => ⟨.ctz, w, p == .fast, [x.toNat]⟩

/-- The value of a digit in a base up to 16. -/
def digitValue (base : Nat) (ch : Char) : Option Nat :=
  let n := ch.toNat
  let v :=
    if 48 ≤ n ∧ n ≤ 57 then n - 48
    else if 97 ≤ n ∧ n ≤ 102 then n - 87
    else if 65 ≤ n ∧ n ≤ 70 then n - 55
    else base
  if v < base then some v else none

/-- The number that digits stand for, most significant first, after a value already read. -/
def digitsValue (base : Nat) : Nat → List Char → Option Nat
  | acc, [] => some acc
  | acc, ch :: rest =>
    match digitValue base ch with
    | some v => digitsValue base (base * acc + v) rest
    | none => none

/-- An unsigned number, decimal or `0x` hexadecimal (R47). -/
def parseNumber : List Char → Option Nat
  | [] => none
  | ['0', 'x'] => none
  | '0' :: 'x' :: ds => digitsValue 16 0 ds
  | ds => digitsValue 10 0 ds

/-- An operand of a listing: a number or `$k` (R48). -/
def parseOperand : List Char → Option ListedOperand
  | [] => none
  | ['$'] => none
  | '$' :: ds => (digitsValue 10 0 ds).map .result
  | ds => (parseNumber ds).map .number

/-- The pieces of a text between occurrences of a character. -/
def splitAtChar (sep : Char) : List Char → List (List Char)
  | [] => [[]]
  | ch :: rest =>
    match splitAtChar sep rest with
    | [] => [[]]
    | p :: ps => if ch = sep then [] :: p :: ps else (ch :: p) :: ps

/-- A text without the spaces it begins with. -/
def dropSpaces (t : List Char) : List Char :=
  t.dropWhile (· == ' ')

/-- `<mnemonic>.<width>[.f]` (R47). -/
def parseHead (t : List Char) : Option (Mnemonic × Width × Bool) :=
  let width (d : List Char) : Option Width :=
    if d = ['3', '2'] then some .w32 else if d = ['6', '4'] then some .w64 else none
  let named (m : List Char) : Option Mnemonic := mnemonics.find? fun n => n.text = m
  match splitAtChar '.' t with
  | [m, d] => do return (← named m, ← width d, false)
  | [m, d, ['f']] => do return (← named m, ← width d, true)
  | _ => none

/-- A line's text: `<mnemonic>.<width>[.f] <operand>{, <operand>}` (R47, R48). -/
def parseLine (t : List Char) : Option ListedLine := do
  let (m, w, f) ← parseHead (t.takeWhile (· != ' '))
  let ops ← ((splitAtChar ',' (t.dropWhile (· != ' '))).map dropSpaces).mapM parseOperand
  return ⟨m, w, f, ops⟩

/-- One operand of a line, given the `W`-bit results of the commands already answered (R48). `$k` may
be written only where the word operand `x` stands. -/
def ListedOperand.resolve (results : List Field64) (isWord : Bool) :
    ListedOperand → Except AsmError Nat
  | .number n => .ok n
  | .result k =>
    match isWord, results[k]? with
    | true, some r => .ok r.toNat
    | _, _ => .error .noSuchResult

/-- The line with every `$k` replaced (R48). The word operand is the first one of every form but
`bcast`'s (R47). -/
def ListedLine.resolve (results : List Field64) (l : ListedLine) : Except AsmError AsmLine :=
  match l.operands with
  | [] => .error .wrongOperands
  | x :: bytes => do
    let x ← x.resolve results (l.mnemonic != .bcast)
    let bytes ← bytes.mapM (·.resolve results false)
    return ⟨l.mnemonic, l.width, l.suffix, x :: bytes⟩

/-- The command of a line of text with no `$k` in it (R47, R50). -/
def assembleText (t : List Char) : Except AsmError Command :=
  match parseLine t with
  | none => .error .notALine
  | some l => do
    let line ← l.resolve []
    let i ← line.assemble
    return encode i

end Sys2Proof.Machine
end

