-- ==== Sys2Proof/Machine/HostSide.lean ====
section
/-! DEFINITION. What the host does around the unit: sequences of transactions (10_state.md R20,
20_memory.md R32), listings with `$k` (30_encoding.md R48), the source's function names (R49) and
signed words (00_scope.md R13). None of it is state or behaviour of the BTU. -/

namespace Sys2Proof.Machine

/-- One transaction: the host presents a command and the BTU answers it (R20). -/
def transact (s : State) (c : Command) : Host.Outcome State Fault Refusal :=
  step (s.present c)

/-- The host presents commands one after another and keeps the responses, in order (R20, R32). -/
def transactions (s : State) : List Command → Host.Outcome (State × List Response) Fault Refusal
  | [] => .next (s, [])
  | c :: cs =>
    match transact s c with
    | .fault f => .fault f
    | .refused f => .refused f
    | .next t =>
      match transactions t cs with
      | .next (u, rs) => .next (u, t.read :: rs)
      | .fault f => .fault f
      | .refused f => .refused f

/-- What a listing leaves behind: the responses, or the line the assembler rejects and why. -/
inductive Transcript where
  /-- every line was answered -/
  | finished (s : State) (responses : List Response)
  /-- line `k` is not a line of R47 -/
  | rejected (k : Nat) (e : AsmError)
  /-- a transaction did not end in a response; no transaction of the BTU does (R94) -/
  | stopped (k : Nat)
deriving DecidableEq, Repr

/-- A listing (R48): the host resolves each `$k` from the responses so far, assembles the line,
presents the command and reads the response. `results` are the `W`-bit results so far, with `W` the
width of the command that gave them. DEDUCED (log 12). -/
def runListing (s : State) (results : List Field64) (responses : List Response) :
    List ListedLine → Transcript
  | [] => .finished s responses
  | l :: ls =>
    match (do (← l.resolve results).assemble : Except AsmError Instr) with
    | .error e => .rejected responses.length e
    | .ok i =>
      match transact s (encode i) with
      | .next t =>
        runListing t (results ++ [l.width.trim t.read.r]) (responses ++ [t.read]) ls
      | .fault _ => .stopped responses.length
      | .refused _ => .stopped responses.length

/-- The field `x` of a signed word: its two's-complement bit pattern, unchanged (R13), with zeros
above bit `W-1`. -/
def signedWord (w : Width) (v : Int) : Field64 :=
  (BitVec.ofInt w.bits v).setWidth 64

/-- A call of the source's function surface (R49), at the width of its word argument. -/
inductive SourceCall where
  /-- `popcount(word) -> count` -/
  | popcount (w : Width) (word : Field64)
  /-- `count_leading_zeros(word) -> count` -/
  | countLeadingZeros (w : Width) (word : Field64)
  /-- `count_trailing_zeros(word) -> count` -/
  | countTrailingZeros (w : Width) (word : Field64)
  /-- `has_byte_equal(word, value) -> bool` -/
  | hasByteEqual (w : Width) (word : Field64) (value : Byte)
  /-- `has_byte_less_than(word, value) -> bool` -/
  | hasByteLessThan (w : Width) (word : Field64) (value : Byte)
  /-- `has_byte_greater_than(word, value) -> bool` -/
  | hasByteGreaterThan (w : Width) (word : Field64) (value : Byte)
  /-- `has_byte_between(word, low, high) -> bool` -/
  | hasByteBetween (w : Width) (word : Field64) (low high : Byte)
  /-- the broadcast helper, no public name -/
  | broadcastHelper (w : Width) (value : Byte)
  /-- the zero-byte detector, no public name -/
  | zeroByteDetector (w : Width) (word : Field64)
deriving DecidableEq, Repr

/-- The operation a call maps to (R49). The path of the bit counts is the host's run-time switch
(R40). -/
def SourceCall.instr (p : Path) : SourceCall → Instr
  | .popcount w x => .popcnt w p x
  | .countLeadingZeros w x => .clz w p x
  | .countTrailingZeros w x => .ctz w p x
  | .hasByteEqual w x v => .haseq w x v
  | .hasByteLessThan w x v => .haslt w x v
  | .hasByteGreaterThan w x v => .hasgt w x v
  | .hasByteBetween w x lo hi => .hasbtw w x lo hi
  | .broadcastHelper w v => .bcast w v
  | .zeroByteDetector w x => .haszero w x

end Sys2Proof.Machine
end

