-- ==== Sys2Proof/Safety.lean ====
section
/-! DEFINITION. What a right answer is, in the terms the statements use: the contracts of the
operations, lane by lane and bit by bit (00_scope.md R12, R77), as a relation that admits every `R`
where a precondition is violated (R14). No datapath formula stands here. -/

namespace Sys2Proof.Machine

/-- The state in which the host has read `p` and nothing else has changed. -/
def State.reading (s : State) (p : Response) : State :=
  { s with read := p }

/-- The command is legal, by the arithmetic of the header (R42, R50): `op <= 8`, `rsv0 = 0`,
`rsv1 = 0`. -/
def LegalCommand (c : Command) : Prop :=
  c.toNat % 16 ≤ 8 ∧ c.toNat / 2 ^ 6 % 4 = 0 ∧ c.toNat / 2 ^ 24 % 256 = 0

/-- Field `op` of the header (R36, R50). -/
def opField (c : Command) : Nat :=
  c.toNat % 16

/-- The width field `w` selects (R37). -/
def widthField (c : Command) : Width :=
  if c.toNat / 2 ^ 4 % 2 = 0 then .w32 else .w64

/-- The path field `p` requests (R40). -/
def pathField (c : Command) : Path :=
  if c.toNat / 2 ^ 5 % 2 = 0 then .fallback else .fast

/-- Field `a` as an integer (R36, R39). -/
def aField (c : Command) : Nat :=
  c.toNat / 2 ^ 8 % 256

/-- Field `b` as an integer (R36, R39). -/
def bField (c : Command) : Nat :=
  c.toNat / 2 ^ 16 % 256

/-- The word operand `cmd.x[W-1:0]` as an integer (R38). -/
def operandField (c : Command) : Nat :=
  c.toNat / 2 ^ 32 % 2 ^ (widthField c).bits

/-- The cause table of `PV` (R96), by the fields of a legal command. -/
def ViolatingCommand (c : Command) : Prop :=
  (opField c = 7 ∧ operandField c = 0) ∨ (opField c = 8 ∧ operandField c = 0) ∨
    (opField c = 5 ∧ (aField c > 127 ∨ bField c > 128 ∨ aField c ≥ bField c))

/-- Two commands agree on `op`, `w` and every field the operation reads, by the table of R43. -/
def SameReadFields (c d : Command) : Prop :=
  opField c = opField d ∧ widthField c = widthField d ∧
    (opField c ≠ 0 → operandField c = operandField d) ∧
    (opField c = 0 ∨ (2 ≤ opField c ∧ opField c ≤ 5) → aField c = aField d) ∧
    (opField c = 5 → bField c = bField d) ∧
    (6 ≤ opField c → pathField c = pathField d)

/-- The bound on `R` that the operation's result format gives (R45): `W` bits for a word, 0 or 1 for a
boolean, at most `W` for a count. -/
def formatBound (c : Command) : Nat :=
  if opField c = 0 then 2 ^ (widthField c).bits - 1
  else if opField c ≤ 5 then 1
  else (widthField c).bits

/-- Two responses are the same as far as the spec fixes them: equal `PV`, equal `ILL` and, when
`PV = 0`, equal `R` (10_state.md R23). -/
def SameResponse (p q : Response) : Prop :=
  p.pv = q.pv ∧ p.ill = q.ill ∧ (p.pv = false → p.r = q.r)

/-- A precondition of the operation is violated (60_exceptions.md R96). -/
def Violated : Instr → Prop
  | .hasbtw _ _ a b => a.toNat > 127 ∨ b.toNat > 128 ∨ a.toNat ≥ b.toNat
  | .clz w _ x => x.toNat % 2 ^ w.bits = 0
  | .ctz w _ x => x.toNat % 2 ^ w.bits = 0
  | _ => False

/-- `R` is what the contract of the operation says, for operands that violate no precondition
(R53, R58, R62, R68, R70, R72, R77). -/
def Contract : Instr → Field64 → Prop
  | .bcast w c, r => ∀ i, i < 8 → lane r i = if i < w.lanes then c else 0
  | .haszero w x, r => r = boolResult (anyLane (operand w x) fun v => v == 0)
  | .haseq w x a, r => r = boolResult (anyLane (operand w x) fun v => v == a)
  | .haslt w x a, r => r = boolResult (anyLane (operand w x) fun v => v.toNat < a.toNat)
  | .hasgt w x a, r => r = boolResult (anyLane (operand w x) fun v => v.toNat > a.toNat)
  | .hasbtw w x a b, r =>
    r = boolResult (anyLane (operand w x) fun v => a.toNat ≤ v.toNat && v.toNat < b.toNat)
  | .popcnt w _ x, r => r = countResult (popcountRef (operand w x))
  | .clz w _ x, r => ∀ h : operand w x ≠ 0, r = countResult (clzRef (operand w x) h)
  | .ctz w _ x, r => ∀ h : operand w x ≠ 0, r = countResult (ctzRef (operand w x) h)

/-- The responses the spec admits for a command (R14, R94): `ILL` for one that spells no operation
(R95), `PV` with any `R` for a violated precondition (R96), else the contract's `R`. -/
def Admitted (c : Command) (p : Response) : Prop :=
  match decode c with
  | .error _ => p = ⟨0, false, true⟩
  | .ok i =>
    p.ill = false ∧ ((Violated i ∧ p.pv = true) ∨ (¬ Violated i ∧ p.pv = false ∧ Contract i p.r))

/-- The ports agree: both what the response port shows and what the host read last are answers the
spec admits for the command port (R25, R111). The first half holds in every state; the second is the
invariant of a transaction. -/
def PortsAgree (s : State) : Prop :=
  Admitted s.cmd s.rsp ∧ Admitted s.cmd s.read

end Sys2Proof.Machine
end

