-- ==== Sys2Proof/Certificates/Slice0/Obligations.lean ====
section
/-! DEFINITION. The statements for the provers, by the numbered rules of spec/. Each docstring names
the rules it formalises. In every equation of the form `exec i s = .next (s.reading p)` the whole
frame is stated: the host has read `p`, and the configuration, the command port and the draw count are
unchanged. The BTU has no
register and no memory (R15, R26), so a frame has nothing else to say. -/

open Sys2Proof Sys2Proof.Machine

/-! ### Commands: format, decoder, encoder -/

/-- R36, R50: where every field of a command lies, read and written by arithmetic, and the worked
example of R50. -/
def Obligations.CommandFieldsByArithmetic : Prop :=
  (∀ c : Command,
    (Fields.ofCommand c).op.toNat = c.toNat % 16 ∧
    (Fields.ofCommand c).w.toNat = c.toNat / 2 ^ 4 % 2 ∧
    (Fields.ofCommand c).p.toNat = c.toNat / 2 ^ 5 % 2 ∧
    (Fields.ofCommand c).rsv0.toNat = c.toNat / 2 ^ 6 % 4 ∧
    (Fields.ofCommand c).a.toNat = c.toNat / 2 ^ 8 % 256 ∧
    (Fields.ofCommand c).b.toNat = c.toNat / 2 ^ 16 % 256 ∧
    (Fields.ofCommand c).rsv1.toNat = c.toNat / 2 ^ 24 % 256 ∧
    (Fields.ofCommand c).x.toNat = c.toNat / 2 ^ 32) ∧
  (∀ i : Instr, (encode i).toNat =
    i.fields.op.toNat + 16 * i.fields.w.toNat + 32 * i.fields.p.toNat + 256 * i.fields.a.toNat
      + 65536 * i.fields.b.toNat + 2 ^ 32 * i.fields.x.toNat) ∧
  encode (.hasbtw .w64 0x0102030405060708 0x02 0x05) = 0x010203040506070800050215

/-- Decode and encode agree on every operation, width, path, byte parameter and word operand
(R36, R41, R43, R50). -/
def Obligations.DecodeEncodeRoundTrip : Prop :=
  ∀ i : Instr, i.wellFormed = true → decode (encode i) = .ok i

/-- Every command the decoder accepts gives a well-formed instruction, and its canonical command
(R43) decodes to the same one. -/
def Obligations.DecodedInstructionIsCanonical : Prop :=
  ∀ (c : Command) (i : Instr), decode c = .ok i →
    i.wellFormed = true ∧ decode (encode i) = .ok i ∧ opField (encode i) = opField c ∧
      SameReadFields (encode i) c

/-- A few commands of 95_test_vectors.md section 2 and 3.8 decode to the operation they stand for. -/
def Obligations.PublishedCommandsDecode : Prop :=
  decode 0x0000000000000000_0000A510 = .ok (.bcast .w64 0xA5) ∧
  decode 0x0000000011003344_00000001 = .ok (.haszero .w32 0x11003344) ∧
  decode 0x0102030405060708_00000512 = .ok (.haseq .w64 0x0102030405060708 0x05) ∧
  decode 0x00000000F0E0D0C0_0000C103 = .ok (.haslt .w32 0xF0E0D0C0 0xC1) ∧
  decode 0x0000000010208140_00008004 = .ok (.hasgt .w32 0x10208140 0x80) ∧
  decode 0x0102030405060708_00050215 = .ok (.hasbtw .w64 0x0102030405060708 0x02 0x05) ∧
  decode 0x0102030405060708_00000036 = .ok (.popcnt .w64 .fast 0x0102030405060708) ∧
  decode 0x0000000000010000_00000007 = .ok (.clz .w32 .fallback 0x00010000) ∧
  decode 0x0000000000010000_00000028 = .ok (.ctz .w32 .fast 0x00010000) ∧
  decode 0x0000FFFF11223344_00000001 = .ok (.haszero .w32 0x11223344) ∧
  decode 0x0102030405060708_0000051F = .error (.reservedOpcode 15) ∧
  decode 0xFFFFFFFFFFFFFFFF_00000096 = .error (.reservedBits 2 0) ∧
  decode 0x0000000000000000_8000A500 = .error (.reservedBits 0 0x80)

/-- R46: the decode procedure. One transaction on a legal command runs the operation its opcode
selects, on the width, operand, byte parameters and path request of its fields. -/
def Obligations.DecodeProcedureSelectsOperation : Prop :=
  ∀ (s : State) (x : Field64) (a b : Byte), LegalCommand s.cmd →
    x.toNat = operandField s.cmd → a.toNat = aField s.cmd → b.toNat = bField s.cmd →
    (opField s.cmd = 0 → step s = exec (.bcast (widthField s.cmd) a) s) ∧
    (opField s.cmd = 1 → step s = exec (.haszero (widthField s.cmd) x) s) ∧
    (opField s.cmd = 2 → step s = exec (.haseq (widthField s.cmd) x a) s) ∧
    (opField s.cmd = 3 → step s = exec (.haslt (widthField s.cmd) x a) s) ∧
    (opField s.cmd = 4 → step s = exec (.hasgt (widthField s.cmd) x a) s) ∧
    (opField s.cmd = 5 → step s = exec (.hasbtw (widthField s.cmd) x a b) s) ∧
    (opField s.cmd = 6 → step s = exec (.popcnt (widthField s.cmd) (pathField s.cmd) x) s) ∧
    (opField s.cmd = 7 → step s = exec (.clz (widthField s.cmd) (pathField s.cmd) x) s) ∧
    (opField s.cmd = 8 → step s = exec (.ctz (widthField s.cmd) (pathField s.cmd) x) s)

/-- A step runs the instruction the decoder reads from the command port, and nothing around it
(R20, R46). -/
def Obligations.StepRunsDecodedInstruction : Prop :=
  ∀ (s : State) (i : Instr), decode s.cmd = .ok i → step s = exec i s

/-- R42, R95: exactly the commands with a reserved opcode or a nonzero reserved bit are illegal; the
decoder refuses them, and the transaction answers `R = 0, PV = 0, ILL = 1` and changes nothing else. -/
def Obligations.IllegalCommandsAnswerIll : Prop :=
  ∀ s : State,
    (¬ LegalCommand s.cmd →
      (∃ e, decode s.cmd = .error e) ∧ step s = .next (s.reading ⟨0, false, true⟩)) ∧
    (LegalCommand s.cmd →
      (∃ i, decode s.cmd = .ok i) ∧ ∃ t, step s = .next t ∧ t.read.ill = false)

/-- R43 (and R38 for `cmd.x[63:32]`): a field the operation does not read never changes the response,
and never sets `ILL` or `PV`. -/
def Obligations.IgnoredFieldsDoNotMatter : Prop :=
  ∀ (s : State) (c d : Command), LegalCommand c → LegalCommand d → SameReadFields c d →
    ∃ t u, step (s.present c) = .next t ∧ step (s.present d) = .next u ∧
      SameResponse t.read u.read

/-! ### The transaction and its status bits -/

/-- R94: every command has a response, and which kind it is. -/
def Obligations.EveryCommandHasResponse : Prop :=
  ∀ s : State, ∃ t, step s = .next t ∧
    (LegalCommand s.cmd → ¬ ViolatingCommand s.cmd → t.read.pv = false ∧ t.read.ill = false) ∧
    (LegalCommand s.cmd → ViolatingCommand s.cmd → t.read.pv = true) ∧
    (¬ LegalCommand s.cmd → t.read.ill = true)

/-- R96: the complete list of causes of `PV`, and its effect. `R` may be any value; the draw count is
the model's own field (log 4). -/
def Obligations.PreconditionViolatedExactly : Prop :=
  ∀ s t : State, step s = .next t →
    (t.read.pv = true ↔ LegalCommand s.cmd ∧ ViolatingCommand s.cmd) ∧
    (t.read.pv = true →
      ∃ r, t = { s.reading ⟨r, true, false⟩ with draws := s.draws + 1 })

/-- R97: legality comes first, whatever the operand fields hold; `PV` and `ILL` are never both 1; and
any one of the three failed tests of `HASBTW` sets `PV`. -/
def Obligations.StatusBitsPriority : Prop :=
  ∀ s t : State, step s = .next t →
    (¬ LegalCommand s.cmd → t.read = ⟨0, false, true⟩) ∧
    ¬ (t.read.pv = true ∧ t.read.ill = true) ∧
    (LegalCommand s.cmd → opField s.cmd = 5 →
      (aField s.cmd > 127 → t.read.pv = true) ∧
      (bField s.cmd > 128 → t.read.pv = true) ∧
      (aField s.cmd ≥ bField s.cmd → t.read.pv = true))

/-- R21: the three fields of the response word. -/
def Obligations.ResponseWordFields : Prop :=
  (∀ p : Response, p.word.toNat = p.r.toNat + 2 ^ 64 * p.pv.toNat + 2 ^ 65 * p.ill.toNat) ∧
  (∀ p : Response, Response.ofWord p.word = p) ∧
  (∀ v : BitVec 66, (Response.ofWord v).word = v)

/-- R45: `R` of a response whose status bits are 0 is within its operation's format. -/
def Obligations.ResultWithinFormat : Prop :=
  ∀ s t : State, step s = .next t → t.read.pv = false → t.read.ill = false →
    t.read.r.toNat ≤ formatBound s.cmd

/-- What a transaction changes: the response the host has read, and the model's draw count exactly
when `ANY_64` is drawn (R17 to R20; the draw count is the model's, log 4). -/
def Obligations.TransactionFrame : Prop :=
  ∀ s t : State, step s = .next t →
    t.cfg = s.cfg ∧ t.cmd = s.cmd ∧ t.draws = s.draws + t.read.pv.toNat

/-- R23: purity. Two transactions with equal commands have equal `PV`, equal `ILL` and, when
`PV = 0`, equal `R`, whatever came before and whatever the configuration. -/
def Obligations.ResponseDependsOnCommandOnly : Prop :=
  ∀ s s' : State, s.cmd = s'.cmd →
    ∃ t t', step s = .next t ∧ step s' = .next t' ∧ SameResponse t.read t'.read

/-- R32: each response is a function of its own command, so any reordering, interleaving, repetition
or omission of other transactions leaves it unchanged. -/
def Obligations.TransactionsAreIndependent : Prop :=
  ∀ (s s' : State) (cs cs' : List Command), ∃ u u' rs rs',
    transactions s cs = .next (u, rs) ∧ transactions s' cs' = .next (u', rs') ∧
    ∀ (i j : Nat) (c : Command), cs[i]? = some c → cs'[j]? = some c →
      ∃ p q, rs[i]? = some p ∧ rs'[j]? = some q ∧ SameResponse p q

/-- R25 (and R108, R111): the response port is combinational. In every state, with no step in between,
it shows an admitted answer to the command the host presents, whatever the host read before; and a
transaction reads what the port shows. -/
def Obligations.ResponsePortFollowsCommand : Prop :=
  (∀ (s : State) (c : Command), Admitted c (s.present c).rsp) ∧
  (∀ (s s' : State), s.cfg = s'.cfg → s.cmd = s'.cmd → s.draws = s'.draws → s.rsp = s'.rsp) ∧
  (∀ s : State,
    step s = .next { s.reading s.rsp with draws := s.draws + s.rsp.pv.toNat })

/-- The machine meets the contracts: one transaction on ANY of the `2^96` commands, from any state
and in either configuration, answers what the spec admits for the command (R12, R14, R20, R94). -/
def Obligations.StepMeetsContracts : Prop :=
  ∀ s : State, ∃ t, step s = .next t ∧ Admitted s.cmd t.read

/-- Invariant: what the response port shows and what the host read last are admitted answers to the
command port. Every transaction of the host, and every run of steps, keeps it, and every response on
the way is admitted (R20, R25, R111). -/
def Obligations.TransactionsKeepPortsAgreeing : Prop :=
  (∀ (s : State) (cs : List Command), PortsAgree s →
    ∃ u rs, transactions s cs = .next (u, rs) ∧ PortsAgree u ∧ List.Forall₂ Admitted cs rs) ∧
  (∀ (s : State) (k : Nat), PortsAgree s →
    ∃ u, Sys2Proof.core.run k s = .next u ∧ PortsAgree u)

/-- The model's choice of `cmd`, `read` and `draws` at reset (log 3; the spec gives no reset value):
what the response port shows and what `read` holds answer the command port, and the first transaction
changes nothing. -/
def Obligations.ResetPortsAgree : Prop :=
  PortsAgree State.reset ∧ step State.reset = .next State.reset

/-! ### Operands and lanes -/

/-- R7, R27 (numbering), R37, R38: the operand is the low `W` bits of `cmd.x`, lane `i` is bits `8i+7`
down to `8i`, and at `W = 32` the lanes are lanes 0 to 3 of the 64-bit field (R28). -/
def Obligations.OperandAndLaneNumbering : Prop :=
  (∀ (w : Width) (x : Field64), (operand w x).toNat = x.toNat % 2 ^ w.bits) ∧
  (∀ (w : Width) (x : BitVec w.bits) (i : Nat), i < w.lanes →
    (lane x i).toNat = x.toNat / 2 ^ (8 * i) % 256) ∧
  (∀ (x : Field64) (i : Nat), i < 4 → lane (operand .w32 x) i = lane x i) ∧
  (∀ (w : Width) (x : BitVec w.bits) (P : Byte → Bool),
    anyLane x P = true ↔ ∃ i, i < w.lanes ∧ P (lane x i) = true)

/-- R27: no response of a byte predicate depends on the order of the lanes; and `POPCNT` counts bits,
so it does not depend on it either. -/
def Obligations.LaneOrderNotObservable : Prop :=
  ∀ (w : Width) (x y : Field64) (s : State),
    ((List.range w.lanes).map (lane (operand w x))).Perm
      ((List.range w.lanes).map (lane (operand w y))) →
    exec (.haszero w x) s = exec (.haszero w y) s ∧
    (∀ a : Byte, exec (.haseq w x a) s = exec (.haseq w y a) s ∧
      exec (.haslt w x a) s = exec (.haslt w y a) s ∧
      exec (.hasgt w x a) s = exec (.hasgt w y a) s) ∧
    (∀ a b : Byte, a.toNat ≤ 127 → b.toNat ≤ 128 → a.toNat < b.toNat →
      exec (.hasbtw w x a b) s = exec (.hasbtw w y a b) s) ∧
    (∀ p q : Path, exec (.popcnt w p x) s = exec (.popcnt w q y) s)

/-! ### BCAST -/

/-- R9, R54: the constants of width `W` and the repunit identity. -/
def Obligations.WordConstants : Prop :=
  (∀ w : Width, (rep w.bits).toNat * 0xFF = 2 ^ w.bits - 1 ∧
    (rep w.bits).toNat = ((List.range w.lanes).map fun i => 2 ^ (8 * i)).sum) ∧
  ones 32 = 0xFFFFFFFF ∧ ones 64 = 0xFFFFFFFFFFFFFFFF ∧
  rep 32 = 0x01010101 ∧ rep 64 = 0x0101010101010101 ∧
  highBits 32 = 0x80808080 ∧ highBits 64 = 0x8080808080808080 ∧
  lowBits 32 = 0x7F7F7F7F ∧ lowBits 64 = 0x7F7F7F7F7F7F7F7F

/-- R51, R52: the result of `BCAST`, its corner cases and its example. -/
def Obligations.BcastAnswersProduct : Prop :=
  (∀ (w : Width) (c : Byte) (s : State), exec (.bcast w c) s =
    .next (s.reading ⟨BitVec.ofNat 64
      (c.toNat * match w with | .w32 => 0x01010101 | .w64 => 0x0101010101010101), false, false⟩)) ∧
  (∀ (w : Width) (s : State),
    exec (.bcast w 0) s = .next (s.reading ⟨0, false, false⟩) ∧
    exec (.bcast w 0xFF) s = .next (s.reading ⟨wordResult (ones w.bits), false, false⟩) ∧
    exec (.bcast w 1) s = .next (s.reading ⟨wordResult (rep w.bits), false, false⟩) ∧
    exec (.bcast w 0x80) s = .next (s.reading ⟨wordResult (highBits w.bits), false, false⟩) ∧
    exec (.bcast w 0x7F) s = .next (s.reading ⟨wordResult (lowBits w.bits), false, false⟩)) ∧
  (∀ s : State, s.cmd = 0x0000000000000000_0000A510 →
    step s = .next (s.reading ⟨0xA5A5A5A5A5A5A5A5, false, false⟩))

/-- R53: every lane of the broadcast word holds the byte; the terms `c * 2^(8i)` do not overlap. -/
def Obligations.BcastFillsEveryLane : Prop :=
  ∀ (w : Width) (c : Byte) (s : State),
    exec (.bcast w c) s = .next (s.reading ⟨wordResult (bc w.bits c), false, false⟩) ∧
    (∀ i, i < w.lanes → lane (bc w.bits c) i = c) ∧
    (bc w.bits c).toNat = ((List.range w.lanes).map fun i => c.toNat * 2 ^ (8 * i)).sum

/-- R55: (a) injectivity, (b) the bitwise laws, (c) sums and differences inside their bounds, (d) the
popcount of a broadcast. -/
def Obligations.BroadcastLaws : Prop :=
  ∀ (w : Width) (c d : Byte),
    (bc w.bits c = bc w.bits d → c = d) ∧
    bc w.bits c &&& bc w.bits d = bc w.bits (c &&& d) ∧
    bc w.bits c ||| bc w.bits d = bc w.bits (c ||| d) ∧
    bc w.bits c ^^^ bc w.bits d = bc w.bits (c ^^^ d) ∧
    ~~~(bc w.bits c) = bc w.bits (255 - c) ∧
    (c.toNat + d.toNat ≤ 255 → bc w.bits c + bc w.bits d = bc w.bits (c + d)) ∧
    (d.toNat ≤ c.toNat → bc w.bits c - bc w.bits d = bc w.bits (c - d)) ∧
    popcountRef (bc w.bits c) = w.lanes * popcountRef c

/-! ### HASZERO and HASEQ -/

/-- R57, R58: `HASZERO` answers whether some lane of the operand is zero, with the corner cases and
the example of R57. -/
def Obligations.HaszeroAnswersZeroLane : Prop :=
  (∀ (w : Width) (x : Field64) (s : State), exec (.haszero w x) s =
    .next (s.reading ⟨boolResult (anyLane (operand w x) fun v => v == 0), false, false⟩)) ∧
  (∀ (w : Width) (s : State),
    exec (.haszero w 0) s = .next (s.reading ⟨1, false, false⟩) ∧
    exec (.haszero w (wordResult (ones w.bits))) s = .next (s.reading ⟨0, false, false⟩) ∧
    exec (.haszero w (wordResult (highBits w.bits))) s = .next (s.reading ⟨0, false, false⟩) ∧
    exec (.haszero w (wordResult (rep w.bits))) s = .next (s.reading ⟨0, false, false⟩)) ∧
  (∀ s : State, s.cmd = 0x0000000011003344_00000001 →
    step s = .next (s.reading ⟨1, false, false⟩))

/-- R59: what the lane bits of `Z_W(x)` say. They are exact at the lowest zero lane and below it; a
zero lane always shows its bit; a lane of value 1 above a zero lane shows its bit too. -/
def Obligations.ZeroWordLaneBits : Prop :=
  (∀ (w : Width) (x : BitVec w.bits) (j : Nat), j < w.lanes → lane x j = 0 →
    (zeroWord x).getLsbD (8 * j + 7) = true ∧
    ((∀ i, i < j → lane x i ≠ 0) → ∀ i, i < j → (zeroWord x).getLsbD (8 * i + 7) = false) ∧
    (j + 1 < w.lanes → lane x (j + 1) = 1 → (zeroWord x).getLsbD (8 * (j + 1) + 7) = true)) ∧
  zeroWord (0x0101010101010100 : BitVec 64) = 0x8080808080808080 ∧
  zeroWord (0x00000100 : BitVec 32) = 0x80808080

/-- R60, R61, R62: `HASEQ` answers whether some lane equals `a`; its two further laws, its corner
case `a = 0` and the example of R61. -/
def Obligations.HaseqAnswersEqualLane : Prop :=
  (∀ (w : Width) (x : Field64) (a : Byte) (s : State), exec (.haseq w x a) s =
    .next (s.reading ⟨boolResult (anyLane (operand w x) fun v => v == a), false, false⟩)) ∧
  (∀ (w : Width) (x : BitVec w.bits) (a : Byte) (i : Nat), i < w.lanes →
    haseq x a = haszero (x ^^^ bc w.bits a) ∧ lane (x ^^^ bc w.bits a) i = lane x i ^^^ a ∧
      (lane x i ^^^ a = 0 ↔ lane x i = a)) ∧
  (∀ (w : Width) (c a : Byte), haseq (bc w.bits c) a = (c == a)) ∧
  (∀ (w : Width) (x : Field64) (s : State), exec (.haseq w x 0) s = exec (.haszero w x) s) ∧
  (∀ (w : Width) (x : Field64) (a : Byte) (s : State), a.toNat ≤ 127 →
    exec (.hasbtw w x a (a + 1)) s = exec (.haseq w x a) s) ∧
  (∀ s : State, s.cmd = 0x0102030405060708_00000512 →
    step s = .next (s.reading ⟨1, false, false⟩))

/-! ### HASLT, HASGT and HASBTW -/

/-- R64: the contract of the helper `LT128` inside its range, exact at the lowest lane below `a`, with
the example of a spurious lane bit. -/
def Obligations.LessThanHelperContract : Prop :=
  (∀ (w : Width) (x : BitVec w.bits) (a : Byte), a.toNat ≤ 128 →
    (lt128 x a ≠ 0 ↔ ∃ i, i < w.lanes ∧ (lane x i).toNat < a.toNat) ∧
    (∀ j, j < w.lanes → (lane x j).toNat < a.toNat →
      (∀ i, i < j → a.toNat ≤ (lane x i).toNat) → (lt128 x a).getLsbD (8 * j + 7) = true)) ∧
  (∀ (w : Width) (x : BitVec w.bits), lt128 x 0 = 0) ∧
  lt128 (0x00000300 : BitVec 32) 3 = 0x80808080

/-- R66: the contract of the helper `GT127` inside its range, with the example of a spurious lane
bit. -/
def Obligations.GreaterThanHelperContract : Prop :=
  (∀ (w : Width) (x : BitVec w.bits) (a : Byte), a.toNat ≤ 127 →
    (gt127 x a ≠ 0 ↔ ∃ i, i < w.lanes ∧ (lane x i).toNat > a.toNat)) ∧
  gt127 (0x000005FF : BitVec 32) 5 = 0x00008080

/-- R67, R68: `HASLT` answers whether some lane is below `a`, for every `a`, with its corner cases and
its two examples. -/
def Obligations.HasltAnswersLaneBelow : Prop :=
  (∀ (w : Width) (x : Field64) (a : Byte) (s : State), exec (.haslt w x a) s =
    .next (s.reading
      ⟨boolResult (anyLane (operand w x) fun v => v.toNat < a.toNat), false, false⟩)) ∧
  (∀ (w : Width) (x : Field64) (s : State),
    exec (.haslt w x 0) s = .next (s.reading ⟨0, false, false⟩) ∧
    exec (.haslt w x 1) s = exec (.haszero w x) s ∧
    exec (.haslt w x 255) s =
      .next (s.reading ⟨boolResult (operand w x != ones w.bits), false, false⟩)) ∧
  (∀ (w : Width) (a : Byte) (s : State),
    exec (.haslt w (wordResult (ones w.bits)) a) s = .next (s.reading ⟨0, false, false⟩)) ∧
  (∀ s : State, s.cmd = 0x0102030405060708_00000313 →
    step s = .next (s.reading ⟨1, false, false⟩)) ∧
  (∀ s : State, s.cmd = 0x00000000F0E0D0C0_0000C103 →
    step s = .next (s.reading ⟨1, false, false⟩)) ∧
  (∀ s : State, s.cmd = 0x00000000F0E0D0C0_0000C003 →
    step s = .next (s.reading ⟨0, false, false⟩))

/-- R69, R70: `HASGT` answers whether some lane is above `a`, for every `a`, with its corner cases and
its examples. -/
def Obligations.HasgtAnswersLaneAbove : Prop :=
  (∀ (w : Width) (x : Field64) (a : Byte) (s : State), exec (.hasgt w x a) s =
    .next (s.reading
      ⟨boolResult (anyLane (operand w x) fun v => v.toNat > a.toNat), false, false⟩)) ∧
  (∀ (w : Width) (x : Field64) (s : State),
    exec (.hasgt w x 255) s = .next (s.reading ⟨0, false, false⟩) ∧
    exec (.hasgt w x 0) s =
      .next (s.reading ⟨boolResult (operand w x != 0), false, false⟩) ∧
    exec (.hasgt w x 254) s =
      .next (s.reading ⟨boolResult (anyLane (operand w x) fun v => v == 0xFF), false, false⟩)) ∧
  (∀ s : State, s.cmd = 0x0102030405060708_00000714 →
    step s = .next (s.reading ⟨1, false, false⟩)) ∧
  (∀ s : State, s.cmd = 0x0000000010208140_00008004 →
    step s = .next (s.reading ⟨1, false, false⟩)) ∧
  (∀ s : State, s.cmd = 0x0000000010208040_00008004 →
    step s = .next (s.reading ⟨0, false, false⟩))

/-- R72: inside its precondition, `HASBTW` answers whether some lane lies in `[a, b)`; the widest
interval and the example. -/
def Obligations.HasbtwAnswersLaneBetween : Prop :=
  (∀ (w : Width) (x : Field64) (a b : Byte) (s : State),
    a.toNat ≤ 127 → b.toNat ≤ 128 → a.toNat < b.toNat →
    exec (.hasbtw w x a b) s =
      .next (s.reading ⟨boolResult
        (anyLane (operand w x) fun v => a.toNat ≤ v.toNat && v.toNat < b.toNat), false, false⟩)) ∧
  (∀ (w : Width) (x : Field64) (s : State),
    exec (.hasbtw w x 0 128) s =
      .next (s.reading
        ⟨boolResult (anyLane (operand w x) fun v => v.getLsbD 7 == false), false, false⟩) ∧
    exec (.hasbtw w x 0 1) s = exec (.haszero w x) s) ∧
  (∀ s : State, s.cmd = 0x0102030405060708_00050215 →
    step s = .next (s.reading ⟨1, false, false⟩))

/-- R72, R96: bounds outside the precondition of `HASBTW` report `PV` with some `R`, on every word. -/
def Obligations.HasbtwBadBoundsReportPv : Prop :=
  ∀ (w : Width) (x : Field64) (a b : Byte) (s : State),
    (a.toNat > 127 ∨ b.toNat > 128 ∨ a.toNat ≥ b.toNat) →
    ∃ r, exec (.hasbtw w x a b) s =
      .next { s.reading ⟨r, true, false⟩ with draws := s.draws + 1 }

/-- R73: every lane bit of `B_W(x, a, b)` is exact and every other bit is 0; and the laws of R73. -/
def Obligations.BetweenWordIsExact : Prop :=
  (∀ (w : Width) (x : BitVec w.bits) (a b : Byte),
    a.toNat ≤ 127 → b.toNat ≤ 128 → a.toNat < b.toNat →
    ∀ i, i < w.lanes →
      ((betweenWord x a b).getLsbD (8 * i + 7) = true ↔
        a.toNat ≤ (lane x i).toNat ∧ (lane x i).toNat < b.toNat) ∧
      ∀ k, k < 7 → (betweenWord x a b).getLsbD (8 * i + k) = false) ∧
  (∀ (w : Width) (x : BitVec w.bits) (a : Byte), a.toNat ≤ 127 →
    hasbtw x a (a + 1) = haseq x a ∧
    hasbtw x a 128 = anyLane x fun v => a.toNat ≤ v.toNat && v.toNat ≤ 127) ∧
  (∀ (w : Width) (x : BitVec w.bits) (b : Byte), 1 ≤ b.toNat → b.toNat ≤ 128 →
    hasbtw x 0 b = haslt x b)

/-- R74: (a) the zero-byte detector is `LT128` at 1; (b) the two branches agree where both helpers are
valid; (c) the ranges in which the helpers are applied. -/
def Obligations.PredicatePiecesRelate : Prop :=
  (∀ (w : Width) (x : BitVec w.bits),
    zeroWord x = lt128 x 1 ∧ haszero x = haslt x 1 ∧
    (lt128 x 128 != 0) = (gt127 (~~~x) 127 != 0) ∧
    (gt127 x 127 != 0) = (lt128 (~~~x) 128 != 0)) ∧
  (∀ a : Byte, a.toNat ≥ 128 → (255 - a).toNat ≤ 127) ∧
  (∀ a : Byte, a.toNat ≥ 127 → (255 - a).toNat ≤ 128)

/-- R56, R63, R65, R71: the four byte-predicate formulas, as arithmetic modulo `2^W` on integers, for
the parameters the rules allow. -/
def Obligations.PredicateFormulasByArithmetic : Prop :=
  ∀ (w : Width) (x : BitVec w.bits) (a b : Byte),
    let M := 2 ^ w.bits
    let R := (rep w.bits).toNat
    let H := 0x80 * R
    (zeroWord x).toNat = ((x.toNat + M - R) % M) &&& (M - 1 - x.toNat) &&& H ∧
    haszero x = decide ((zeroWord x).toNat ≠ 0) ∧
    (a.toNat ≤ 128 →
      (lt128 x a).toNat = ((x.toNat + M - a.toNat * R) % M) &&& (M - 1 - x.toNat) &&& H) ∧
    (a.toNat ≤ 127 →
      (gt127 x a).toNat = (((x.toNat + (127 - a.toNat) * R) % M) ||| x.toNat) &&& H) ∧
    (a.toNat ≤ 127 → b.toNat ≤ 128 → a.toNat < b.toNat →
      (betweenWord x a b).toNat =
        (((127 + b.toNat) * R + M - (x.toNat &&& 0x7F * R)) % M) &&& (M - 1 - x.toNat) &&&
          (((x.toNat &&& 0x7F * R) + (128 - a.toNat) * R) % M) &&& H ∧
      hasbtw x a b = decide ((betweenWord x a b).toNat ≠ 0))

/-! ### POPCNT, CLZ and CTZ -/

/-- R75, R76: which path answers; a command that asks for the fallback always gets it. -/
def Obligations.PathSelection : Prop :=
  (∀ (cfg : Cfg) (p : Path),
    (selectPath cfg p = .fast ↔ p = .fast ∧ cfg.fastPathPresent = true) ∧
    (selectPath cfg p = .fallback ↔ ¬ (p = .fast ∧ cfg.fastPathPresent = true))) ∧
  (∀ (w : Width) (x : Field64) (s : State), exec (.popcnt w .fallback x) s =
    .next (s.reading ⟨wordResult (popcountFallback (operand w x)), false, false⟩)) ∧
  (∀ (w : Width) (x : Field64) (s : State), operand w x ≠ 0 →
    exec (.clz w .fallback x) s =
      .next (s.reading ⟨wordResult (clzFallback (operand w x)), false, false⟩) ∧
    exec (.ctz w .fallback x) s =
      .next (s.reading ⟨wordResult (ctzFallback (operand w x)), false, false⟩))

/-- R78: the paths agree on every word inside the preconditions, so no response with `PV = 0` depends
on the path requested or on the configuration. -/
def Obligations.PathsAgree : Prop :=
  (∀ (w : Width) (x : BitVec w.bits), (popcountFallback x).toNat = popcountRef x) ∧
  (∀ (w : Width) (x : BitVec w.bits) (h : x ≠ 0),
    (clzFallback x).toNat = clzRef x h ∧ (ctzFallback x).toNat = ctzRef x h) ∧
  (∀ (s : State) (cfg : Cfg) (w : Width) (p q : Path) (x : Field64), operand w x ≠ 0 →
    ∃ r₁ r₂ r₃,
      exec (.popcnt w p x) s = .next (s.reading ⟨r₁, false, false⟩) ∧
      exec (.popcnt w q x) { s with cfg := cfg } =
        .next ({ s with cfg := cfg }.reading ⟨r₁, false, false⟩) ∧
      exec (.clz w p x) s = .next (s.reading ⟨r₂, false, false⟩) ∧
      exec (.clz w q x) { s with cfg := cfg } =
        .next ({ s with cfg := cfg }.reading ⟨r₂, false, false⟩) ∧
      exec (.ctz w p x) s = .next (s.reading ⟨r₃, false, false⟩) ∧
      exec (.ctz w q x) { s with cfg := cfg } =
        .next ({ s with cfg := cfg }.reading ⟨r₃, false, false⟩))

/-- R79, R82, R85: the fallback formulas, as arithmetic modulo `2^W` on integers with the masks of
R79 written as `ONES_W` divided by 3, 5, 17 and 255. -/
def Obligations.FallbackFormulasByArithmetic : Prop :=
  ∀ (w : Width) (x : BitVec w.bits),
    let M := 2 ^ w.bits
    let popcnt : Nat → Nat := fun x =>
      let s1 := (x + M - ((x / 2) &&& ((M - 1) / 3))) % M
      let s2 := ((s1 &&& ((M - 1) / 5)) + ((s1 / 4) &&& ((M - 1) / 5))) % M
      let s3 := ((s2 + s2 / 16) % M) &&& ((M - 1) / 17)
      s3 * ((M - 1) / 255) % M / 2 ^ (w.bits - 8)
    let y2 := (x.toNat ||| x.toNat / 2) ||| (x.toNat ||| x.toNat / 2) / 4
    let y3 := y2 ||| y2 / 16
    let y4 := y3 ||| y3 / 256
    let y5 := y4 ||| y4 / 65536
    let y6 := match w with | .w32 => y5 | .w64 => y5 ||| y5 / 2 ^ 32
    (popcountFallback x).toNat = popcnt x.toNat ∧
    (smear x).toNat = y6 ∧
    (clzFallback x).toNat = popcnt (M - 1 - y6) ∧
    (isolateLowest x).toNat = x.toNat &&& ((M - x.toNat) % M) ∧
    (ctzFallback x).toNat = popcnt (((x.toNat &&& ((M - x.toNat) % M)) + M - 1) % M)

/-- R77, R80: `POPCNT` answers the number of set bits of the operand, on either path, with the corner
cases and the example of R80. -/
def Obligations.PopcntAnswersBitCount : Prop :=
  (∀ (w : Width) (p : Path) (x : Field64) (s : State), exec (.popcnt w p x) s =
    .next (s.reading ⟨BitVec.ofNat 64
      ((List.range w.bits).countP fun i => x.getLsbD i), false, false⟩)) ∧
  (∀ (w : Width) (p : Path) (s : State),
    exec (.popcnt w p 0) s = .next (s.reading ⟨0, false, false⟩) ∧
    exec (.popcnt w p (BitVec.allOnes 64)) s =
      .next (s.reading ⟨BitVec.ofNat 64 w.bits, false, false⟩)) ∧
  (∀ s : State, s.cmd = 0x0102030405060708_00000016 ∨ s.cmd = 0x0102030405060708_00000036 →
    step s = .next (s.reading ⟨13, false, false⟩))

/-- R81: the popcount fallback equals the reference, and the laws of popcount. -/
def Obligations.PopcountLaws : Prop :=
  ∀ (w : Width) (x : BitVec w.bits) (c : Byte),
    (popcountFallback x).toNat = popcountRef x ∧
    popcountRef (0 : BitVec w.bits) = 0 ∧
    popcountRef (ones w.bits) = w.bits ∧
    popcountRef (~~~x) = w.bits - popcountRef x ∧
    popcountRef x = ((List.range w.lanes).map fun i => popcountRef (lane x i)).sum ∧
    popcountRef (bc w.bits c) = w.lanes * popcountRef c

/-- R77, R83: `CLZ` of a nonzero operand answers the number of zero bits above the highest set bit, on
either path, with the example of R83. -/
def Obligations.ClzAnswersLeadingZeros : Prop :=
  (∀ (w : Width) (p : Path) (x : Field64) (m : Nat) (s : State),
    m < w.bits → x.getLsbD m = true → (∀ j, m < j → j < w.bits → x.getLsbD j = false) →
    exec (.clz w p x) s =
      .next (s.reading ⟨BitVec.ofNat 64 (w.bits - 1 - m), false, false⟩)) ∧
  (∀ (w : Width) (p : Path) (x : Field64) (s : State), operand w x ≠ 0 →
    ∃ n, n < w.bits ∧
      exec (.clz w p x) s = .next (s.reading ⟨BitVec.ofNat 64 n, false, false⟩)) ∧
  (∀ s : State, s.cmd = 0x0000000000010000_00000007 →
    step s = .next (s.reading ⟨15, false, false⟩))

/-- R77, R86: `CTZ` of a nonzero operand answers the number of zero bits below the lowest set bit, on
either path, with the example of R86. -/
def Obligations.CtzAnswersTrailingZeros : Prop :=
  (∀ (w : Width) (p : Path) (x : Field64) (m : Nat) (s : State),
    m < w.bits → x.getLsbD m = true → (∀ j, j < m → x.getLsbD j = false) →
    exec (.ctz w p x) s = .next (s.reading ⟨BitVec.ofNat 64 m, false, false⟩)) ∧
  (∀ (w : Width) (p : Path) (x : Field64) (s : State), operand w x ≠ 0 →
    ∃ n, n < w.bits ∧
      exec (.ctz w p x) s = .next (s.reading ⟨BitVec.ofNat 64 n, false, false⟩)) ∧
  (∀ s : State, s.cmd = 0x0000000000010000_00000008 →
    step s = .next (s.reading ⟨16, false, false⟩))

/-- R84: smearing fills every bit below the highest set bit, and the clz fallback equals the
reference. -/
def Obligations.SmearFillsBelowHighest : Prop :=
  ∀ (w : Width) (x : BitVec w.bits) (h : x ≠ 0),
    (smear x).toNat = 2 ^ (highestSet x h + 1) - 1 ∧ (clzFallback x).toNat = clzRef x h

/-- R87: `x & neg(x)` is the lowest set bit alone, and the ctz fallback equals the reference. -/
def Obligations.LowestBitIsolated : Prop :=
  ∀ (w : Width) (x : BitVec w.bits) (h : x ≠ 0),
    (isolateLowest x).toNat = 2 ^ lowestSet x h ∧
    (isolateLowest x - 1).toNat = 2 ^ lowestSet x h - 1 ∧ (ctzFallback x).toNat = ctzRef x h

/-- R88: `CLZ` and `CTZ` of zero report `PV` with some `R` on both paths; `POPCNT` of zero is 0. -/
def Obligations.ZeroOperandReportsPv : Prop :=
  ∀ (w : Width) (p : Path) (x : Field64) (s : State), x.toNat % 2 ^ w.bits = 0 →
    (∃ r, exec (.clz w p x) s =
      .next { s.reading ⟨r, true, false⟩ with draws := s.draws + 1 }) ∧
    (∃ r, exec (.ctz w p x) s =
      .next { s.reading ⟨r, true, false⟩ with draws := s.draws + 1 }) ∧
    exec (.popcnt w p x) s = .next (s.reading ⟨0, false, false⟩)

/-- R89: the boundary property, on words with bits set only at `i` and `j`, `i <= j`. -/
def Obligations.TwoBitWords : Prop :=
  ∀ (w : Width) (p : Path) (i j : Nat) (s : State), i ≤ j → j < w.bits →
    exec (.ctz w p ((1#64 <<< i) ||| (1#64 <<< j))) s =
      .next (s.reading ⟨BitVec.ofNat 64 i, false, false⟩) ∧
    exec (.clz w p ((1#64 <<< i) ||| (1#64 <<< j))) s =
      .next (s.reading ⟨BitVec.ofNat 64 (w.bits - 1 - j), false, false⟩) ∧
    exec (.popcnt w p ((1#64 <<< i) ||| (1#64 <<< j))) s =
      .next (s.reading ⟨if i = j then 1 else 2, false, false⟩)

/-- R91: how the counts of a nonzero 32-bit value relate to those of its zero extension, and how the
three counts of one word relate. -/
def Obligations.CountRelations : Prop :=
  (∀ (p : Path) (x : Field64) (s : State), x.toNat < 2 ^ 32 → x ≠ 0 →
    ∃ c z l, l < 32 ∧
      exec (.popcnt .w32 p x) s = .next (s.reading ⟨c, false, false⟩) ∧
      exec (.popcnt .w64 p x) s = .next (s.reading ⟨c, false, false⟩) ∧
      exec (.ctz .w32 p x) s = .next (s.reading ⟨z, false, false⟩) ∧
      exec (.ctz .w64 p x) s = .next (s.reading ⟨z, false, false⟩) ∧
      exec (.clz .w32 p x) s = .next (s.reading ⟨BitVec.ofNat 64 l, false, false⟩) ∧
      exec (.clz .w64 p x) s = .next (s.reading ⟨BitVec.ofNat 64 (l + 32), false, false⟩)) ∧
  (∀ (w : Width) (x : BitVec w.bits) (h : x ≠ 0),
    clzRef x h + ctzRef x h ≤ w.bits - 1 ∧
    (clzRef x h + ctzRef x h = w.bits - 1 ↔ popcountRef x = 1) ∧
    clzRef x h + ctzRef x h + popcountRef x ≤ w.bits ∧
    (clzRef x h + ctzRef x h + popcountRef x = w.bits ↔
      ∀ i, lowestSet x h ≤ i → i ≤ highestSet x h → x.getLsbD i = true))

/-! ### The host's side -/

/-- R47, R49: every well-formed instruction is one line, and every line the assembler accepts is that
of the one instruction it stands for. -/
def Obligations.AssemblerLinesAreInstructions : Prop :=
  (∀ i : Instr, i.wellFormed = true → (AsmLine.ofInstr i).assemble = .ok i) ∧
  (∀ (l : AsmLine) (i : Instr), l.assemble = .ok i → i.wellFormed = true ∧ AsmLine.ofInstr i = l)

/-- R13: a signed word enters as its two's-complement bit pattern, with zeros above bit `W-1`. -/
def Obligations.SignedWordIsBitPattern : Prop :=
  ∀ (w : Width) (v : Int), -(2 ^ (w.bits - 1)) ≤ v → v < 2 ^ (w.bits - 1) →
    (operand w (signedWord w v)).toInt = v ∧ (signedWord w v).toNat < 2 ^ w.bits
end

