-- ==== Sys2Proof/Laws/BitCount.lean ====
section
/-! SUPPORT. What the reference functions' `min` and `max` are (44_bitcount.md R77), and the cases of
path selection (R75). -/

namespace Sys2Proof.Machine

/-- The lowest set bit: it is set, it lies in the word, and no bit below it is set. -/
theorem lowestSet_spec {W : Nat} (x : BitVec W) (h : x ≠ 0) :
    x.getLsbD (lowestSet x h) = true ∧ lowestSet x h < W ∧
      ∀ j, j < lowestSet x h → x.getLsbD j = false := by
  obtain ⟨m, hm⟩ := Option.isSome_iff_exists.mp (lowest_isSome h)
  have hlow : lowestSet x h = m := by simp [lowestSet, hm]
  rw [hlow]
  rw [List.find?_range_eq_some] at hm
  refine ⟨hm.1, List.mem_range.mp hm.2.1, fun j hj => ?_⟩
  simpa using hm.2.2 j hj

/-- The highest set bit: it is set, it lies in the word, and no bit of the word above it is set. -/
theorem highestSet_spec {W : Nat} (x : BitVec W) (h : x ≠ 0) :
    x.getLsbD (highestSet x h) = true ∧ highestSet x h < W ∧
      ∀ j, highestSet x h < j → x.getLsbD j = false := by
  obtain ⟨m, hm⟩ := Option.isSome_iff_exists.mp (highest_isSome h)
  have hhigh : highestSet x h = m := by simp [highestSet, hm]
  rw [hhigh]
  obtain ⟨hset, k, hk, hget, hbefore⟩ := List.find?_eq_some_iff_getElem.mp hm
  simp only [List.length_reverse, List.length_range, List.getElem_reverse,
    List.getElem_range] at hk hget hbefore
  refine ⟨hset, by omega, fun j hj => ?_⟩
  by_cases hjW : j < W
  · have := hbefore (W - 1 - j) (by omega)
    rw [show W - 1 - (W - 1 - j) = j by omega] at this
    simpa using this
  · exact BitVec.getLsbD_of_ge x j (by omega)

@[simp] theorem selectPath_fallback (cfg : Cfg) : selectPath cfg .fallback = .fallback := rfl

@[simp] theorem selectPath_fast_present : selectPath ⟨true⟩ .fast = .fast := rfl

@[simp] theorem selectPath_fast_absent : selectPath ⟨false⟩ .fast = .fallback := rfl

end Sys2Proof.Machine
end

