-- ==== Sys2Proof/Laws/Encoding.lean ====
section
/-! SUPPORT. Where each bit of a command comes from (30_encoding.md R36). -/

namespace Sys2Proof

/-- Bit `i` of a command, by the field it lies in. -/
theorem getLsbD_command (f : Fields) (i : Nat) :
    f.command.getLsbD i =
      if i < 4 then f.op.getLsbD i
      else if i < 5 then f.w.getLsbD (i - 4)
      else if i < 6 then f.p.getLsbD (i - 5)
      else if i < 8 then f.rsv0.getLsbD (i - 6)
      else if i < 16 then f.a.getLsbD (i - 8)
      else if i < 24 then f.b.getLsbD (i - 16)
      else if i < 32 then f.rsv1.getLsbD (i - 24)
      else f.x.getLsbD (i - 32) := by
  have hdef : f.command.getLsbD i =
      BitVec.getLsbD (w := 64 + 8 + 8 + 8 + 2 + 1 + 1 + 4)
        (f.x ++ f.rsv1 ++ f.b ++ f.a ++ f.rsv0 ++ f.p ++ f.w ++ f.op) i := rfl
  rw [hdef]
  simp only [BitVec.getLsbD_append, Nat.sub_sub]
  repeat' split
  all_goals first
    | rfl
    | (exfalso; omega)

end Sys2Proof
end

