-- ==== Sys2Proof/Laws/State.lean ====
section
/-! SUPPORT. One lemma per field per update of State, true by definition. -/

namespace Sys2Proof.Machine

@[simp] theorem State.present_cfg (s : State) (c : Command) : (s.present c).cfg = s.cfg := rfl
@[simp] theorem State.present_cmd (s : State) (c : Command) : (s.present c).cmd = c := rfl
@[simp] theorem State.present_read (s : State) (c : Command) : (s.present c).read = s.read := rfl
@[simp] theorem State.present_draws (s : State) (c : Command) : (s.present c).draws = s.draws := rfl

@[simp] theorem State.reading_cfg (s : State) (p : Response) : (s.reading p).cfg = s.cfg := rfl
@[simp] theorem State.reading_cmd (s : State) (p : Response) : (s.reading p).cmd = s.cmd := rfl
@[simp] theorem State.reading_read (s : State) (p : Response) : (s.reading p).read = p := rfl
@[simp] theorem State.reading_draws (s : State) (p : Response) : (s.reading p).draws = s.draws := rfl

@[simp] theorem State.draw_cfg (s : State) (i : Instr) : (s.draw i).cfg = s.cfg := rfl

/-- Presenting a command, then another, leaves only the second on the port. -/
@[simp] theorem State.present_present (s : State) (c d : Command) :
    (s.present c).present d = s.present d := rfl

/-- Only the last reading stays. -/
@[simp] theorem State.reading_reading (s : State) (p q : Response) :
    (s.reading p).reading q = s.reading q := rfl

/-- The response port does not depend on what the host read (10_state.md R25). -/
@[simp] theorem State.reading_rsp (s : State) (p : Response) : (s.reading p).rsp = s.rsp := rfl

/-- What the fetch finds is the table word (10_state.md R20). -/
@[simp] theorem State.withFetchWord_cmd (s : State) (nbits w : Nat) :
    (s.withFetchWord nbits w).cmd = commandOfTableWord nbits w := rfl

@[simp] theorem completed_pv (r : Field64) : (completed r).pv = false := rfl
@[simp] theorem completed_ill (r : Field64) : (completed r).ill = false := rfl
@[simp] theorem completed_r (r : Field64) : (completed r).r = r := rfl
@[simp] theorem violated_pv (d : Draw) : (violated d).pv = true := rfl
@[simp] theorem violated_ill (d : Draw) : (violated d).ill = false := rfl
@[simp] theorem illegalResponse_pv : illegalResponse.pv = false := rfl
@[simp] theorem illegalResponse_ill : illegalResponse.ill = true := rfl
@[simp] theorem illegalResponse_r : illegalResponse.r = 0 := rfl

end Sys2Proof.Machine
end

