-- ==== Sys2Proof/Laws/Ops.lean ====
section
/-! SUPPORT. What each shared operation can do, said once. -/

namespace Sys2Proof.Machine

/-- A transaction ends in exactly one way. -/
theorem conclude_next {s t : State} {p : Response} :
    conclude s p = .next t ↔ t = { s.reading p with draws := s.draws + p.pv.toNat } := by
  constructor
  · intro h
    cases h
    rfl
  · rintro rfl
    rfl

/-- A response whose `PV` is 0 changes nothing but the reading. -/
theorem conclude_of_pv_false (s : State) {p : Response} (h : p.pv = false) :
    conclude s p = .next (s.reading p) := by
  simp [conclude, h, State.reading]

@[simp] theorem conclude_completed (s : State) (r : Field64) :
    conclude s (completed r) = .next (s.reading ⟨r, false, false⟩) := rfl

@[simp] theorem conclude_illegal (s : State) :
    conclude s illegalResponse = .next (s.reading ⟨0, false, true⟩) := rfl

@[simp] theorem conclude_violated (s : State) (d : Draw) :
    conclude s (violated d) =
      .next { s.reading ⟨Config.any64 d, true, false⟩ with draws := s.draws + 1 } := rfl

@[simp] theorem checked_some (d : Draw) (r : Field64) : checked d (some r) = completed r := rfl

@[simp] theorem checked_none (d : Draw) : checked d none = violated d := rfl

/-- An operation with a precondition never reports `ILL`, and reports `PV` exactly where it has no
result. -/
theorem checked_status (d : Draw) (o : Option Field64) :
    (checked d o).ill = false ∧ ((checked d o).pv = true ↔ o = none) := by
  cases o <;> simp

end Sys2Proof.Machine
end

