-- ==== Sys2Proof/Laws/Exec.lean ====
section
/-! SUPPORT. What an operation and a step can do, said once for all nine operations. -/

namespace Sys2Proof.Machine

/-- The result of an operation in a configuration; none where its precondition is violated. -/
def resultOf (cfg : Cfg) : Instr → Option Field64
  | .bcast w c => some (wordResult (bc w.bits c))
  | .haszero w x => some (boolResult (haszero (operand w x)))
  | .haseq w x a => some (boolResult (haseq (operand w x) a))
  | .haslt w x a => some (boolResult (haslt (operand w x) a))
  | .hasgt w x a => some (boolResult (hasgt (operand w x) a))
  | .hasbtw w x a b => hasbtwChecked (operand w x) a b
  | .popcnt w p x => some (popcountOn (selectPath cfg p) (operand w x))
  | .clz w p x => clzChecked (selectPath cfg p) (operand w x)
  | .ctz w p x => ctzChecked (selectPath cfg p) (operand w x)

/-- Every operation's response is its result, or a violated precondition where it has none. -/
theorem responseOf_eq_checked (s : State) (i : Instr) :
    responseOf s i = checked (s.draw i) (resultOf s.cfg i) := by
  cases i <;> rfl

/-- Every operation concludes with its response. -/
theorem exec_eq_conclude (i : Instr) (s : State) : exec i s = conclude s (responseOf s i) := by
  cases i <;> rfl

/-- What an operation can do. -/
theorem exec_next {i : Instr} {s t : State} :
    exec i s = .next t ↔
      (∃ r, resultOf s.cfg i = some r ∧ t = s.reading ⟨r, false, false⟩) ∨
      (resultOf s.cfg i = none ∧
        t = { s.reading ⟨Config.any64 (s.draw i), true, false⟩ with draws := s.draws + 1 }) := by
  rw [exec_eq_conclude, responseOf_eq_checked]
  cases resultOf s.cfg i <;> simp [eq_comm]

/-- What a step can do. -/
theorem step_next {s t : State} :
    step s = .next t ↔
      (∃ e, decode s.cmd = .error e ∧ t = s.reading ⟨0, false, true⟩) ∨
      (∃ i, decode s.cmd = .ok i ∧ exec i s = .next t) := by
  unfold step
  cases decode s.cmd <;> simp [eq_comm]

/-- The response port, by what the decoder says of the command port. -/
theorem State.rsp_of_ok {s : State} {i : Instr} (h : decode s.cmd = .ok i) :
    s.rsp = responseOf s i := by
  simp [State.rsp, h]

theorem State.rsp_of_error {s : State} {e : Illegal} (h : decode s.cmd = .error e) :
    s.rsp = illegalResponse := by
  simp [State.rsp, h]

/-- An operation has no result exactly where its precondition is violated (R96). -/
theorem hasbtwChecked_eq_none {W : Nat} (x : BitVec W) (a b : Byte) :
    hasbtwChecked x a b = none ↔ violatesBounds a b = true := by
  unfold hasbtwChecked
  split <;> simp_all

theorem clzChecked_eq_none {W : Nat} (p : Path) (x : BitVec W) :
    clzChecked p x = none ↔ x = 0 := by
  unfold clzChecked
  split
  · next h => simpa [violatesNonzero] using h
  · next h => simpa [violatesNonzero] using h

theorem ctzChecked_eq_none {W : Nat} (p : Path) (x : BitVec W) :
    ctzChecked p x = none ↔ x = 0 := by
  unfold ctzChecked
  split
  · next h => simpa [violatesNonzero] using h
  · next h => simpa [violatesNonzero] using h

end Sys2Proof.Machine
end

