-- ==== Sys2Proof/Laws/Lanes.lean ====
section
/-! SUPPORT. Bits of lanes and operands. -/

namespace Sys2Proof.Machine

/-- Bit `k` of lane `i` is bit `8i+k` of the word (00_scope.md R7). -/
theorem getLsbD_lane {W : Nat} (x : BitVec W) (i k : Nat) :
    (lane x i).getLsbD k = (decide (k < 8) && x.getLsbD (8 * i + k)) := by
  simp [lane]

/-- A bit of the operand is that bit of the field, inside the width (30_encoding.md R38). -/
theorem getLsbD_operand (w : Width) (x : Field64) (i : Nat) :
    (operand w x).getLsbD i = (decide (i < w.bits) && x.getLsbD i) := by
  simp [operand]

@[simp] theorem boolResult_true : boolResult true = 1 := rfl

@[simp] theorem boolResult_false : boolResult false = 0 := rfl

end Sys2Proof.Machine
end

