-- ==== Sys2Proof/Laws/PerInstr.lean ====
section
/-! SUPPORT. The per-instruction family `EncodingMatchesRow`: the encoded command has the fixed bits
of its row of spec/opcode_table.json, mask `0xFF0000CF` and match value the opcode (30_encoding.md
R41). -/

namespace Sys2Proof.Laws

/-- With both reserved fields zero, the fixed bits of a command are its opcode. -/
theorem command_and_mask (f : Fields) (h0 : f.rsv0 = 0) (h1 : f.rsv1 = 0) :
    f.command &&& 0xFF0000CF#96 = f.op.setWidth 96 := by
  refine BitVec.eq_of_getLsbD_eq fun i hi => ?_
  rw [BitVec.getLsbD_and, getLsbD_command, BitVec.getLsbD_setWidth, h0, h1]
  interval_cases i <;> simp

namespace EncodingMatchesRow

/-- The encoded command has its row's fixed bits (R41). -/
def Statement (i : Instr) : Prop :=
  encode i &&& 0xFF0000CF#96 = i.opcode.setWidth 96

theorem bcast (w : Width) (c : Byte) : Statement (.bcast w c) :=
  command_and_mask _ rfl rfl

theorem haszero (w : Width) (x : Field64) : Statement (.haszero w x) :=
  command_and_mask _ rfl rfl

theorem haseq (w : Width) (x : Field64) (a : Byte) : Statement (.haseq w x a) :=
  command_and_mask _ rfl rfl

theorem haslt (w : Width) (x : Field64) (a : Byte) : Statement (.haslt w x a) :=
  command_and_mask _ rfl rfl

theorem hasgt (w : Width) (x : Field64) (a : Byte) : Statement (.hasgt w x a) :=
  command_and_mask _ rfl rfl

theorem hasbtw (w : Width) (x : Field64) (a b : Byte) : Statement (.hasbtw w x a b) :=
  command_and_mask _ rfl rfl

theorem popcnt (w : Width) (p : Path) (x : Field64) : Statement (.popcnt w p x) :=
  command_and_mask _ rfl rfl

theorem clz (w : Width) (p : Path) (x : Field64) : Statement (.clz w p x) :=
  command_and_mask _ rfl rfl

theorem ctz (w : Width) (p : Path) (x : Field64) : Statement (.ctz w p x) :=
  command_and_mask _ rfl rfl

end EncodingMatchesRow

end Sys2Proof.Laws
end

