-- ==== Sys2Proof/Tests/Slice0.lean ====
section
/-! SUPPORT. Small tests. Every expected value is the spec's: the operation rules' worked examples and
the vectors of 95_test_vectors.md. `witness_` theorems show states and operands that meet the
hypotheses of the statement they name, at boundary values. -/

namespace Sys2Proof.Tests

open Sys2Proof Sys2Proof.Machine

/-- A machine with or without the fast path, a command on its port and an old response. -/
def port (fast : Bool) (c : Command) : State :=
  ⟨⟨fast⟩, c, ⟨7, true, true⟩, 3⟩

/-- The response after one transaction. -/
def answerTo (fast : Bool) (c : Command) : Option Response :=
  match step (port fast c) with
  | .next t => some t.read
  | _ => none

/-- The two status bits after one transaction. -/
def statusOf (fast : Bool) (c : Command) : Option (Bool × Bool) :=
  (answerTo fast c).map fun p => (p.pv, p.ill)

/-! ### WellFormed refuses a word operand that does not fit (30_encoding.md R47) -/

theorem test_illformed_haszero : (Instr.haszero .w32 0x100000000).wellFormed = false := by decide
theorem test_illformed_haseq : (Instr.haseq .w32 0x100000000 1).wellFormed = false := by decide
theorem test_illformed_haslt : (Instr.haslt .w32 0x100000000 1).wellFormed = false := by decide
theorem test_illformed_hasgt : (Instr.hasgt .w32 0x100000000 1).wellFormed = false := by decide
theorem test_illformed_hasbtw : (Instr.hasbtw .w32 0x100000000 1 2).wellFormed = false := by decide
theorem test_illformed_popcnt :
    (Instr.popcnt .w32 .fast 0x100000000).wellFormed = false := by decide
theorem test_illformed_clz :
    (Instr.clz .w32 .fallback 0xFFFFFFFF00000000).wellFormed = false := by decide
theorem test_illformed_ctz : (Instr.ctz .w32 .fast 0x100000000).wellFormed = false := by decide
theorem test_wellformed_boundary : (Instr.haszero .w32 0xFFFFFFFF).wellFormed = true := by decide

/-! ### Decoding, words written out field by field from R36: x, rsv1, b, a, rsv0, p, w, op -/

theorem test_decode_bcast :
    decode (0#64 ++ 0#8 ++ 0#8 ++ 0xA5#8 ++ 0#2 ++ 0#1 ++ 1#1 ++ 0#4) = .ok (.bcast .w64 0xA5) := by
  decide
theorem test_decode_haszero :
    decode (0x11003344#64 ++ 0#8 ++ 0#8 ++ 0#8 ++ 0#2 ++ 0#1 ++ 0#1 ++ 1#4) =
      .ok (.haszero .w32 0x11003344) := by decide
theorem test_decode_haseq :
    decode (0x0102030405060708#64 ++ 0#8 ++ 0x77#8 ++ 0x05#8 ++ 0#2 ++ 1#1 ++ 1#1 ++ 2#4) =
      .ok (.haseq .w64 0x0102030405060708 0x05) := by decide
theorem test_decode_haslt :
    decode (0xF0E0D0C0#64 ++ 0#8 ++ 0#8 ++ 0xC1#8 ++ 0#2 ++ 0#1 ++ 0#1 ++ 3#4) =
      .ok (.haslt .w32 0xF0E0D0C0 0xC1) := by decide
theorem test_decode_hasgt :
    decode (0x10208140#64 ++ 0#8 ++ 0#8 ++ 0x80#8 ++ 0#2 ++ 0#1 ++ 0#1 ++ 4#4) =
      .ok (.hasgt .w32 0x10208140 0x80) := by decide
theorem test_decode_hasbtw :
    decode (0x0102030405060708#64 ++ 0#8 ++ 0x05#8 ++ 0x02#8 ++ 0#2 ++ 0#1 ++ 1#1 ++ 5#4) =
      .ok (.hasbtw .w64 0x0102030405060708 0x02 0x05) := by decide
theorem test_decode_popcnt :
    decode (0x0102030405060708#64 ++ 0#8 ++ 0xFF#8 ++ 0xFF#8 ++ 0#2 ++ 1#1 ++ 1#1 ++ 6#4) =
      .ok (.popcnt .w64 .fast 0x0102030405060708) := by decide
theorem test_decode_clz :
    decode (0xFFFFFFFF00010000#64 ++ 0#8 ++ 0#8 ++ 0#8 ++ 0#2 ++ 0#1 ++ 0#1 ++ 7#4) =
      .ok (.clz .w32 .fallback 0x00010000) := by decide
theorem test_decode_ctz :
    decode (0x00010000#64 ++ 0#8 ++ 0#8 ++ 0#8 ++ 0#2 ++ 1#1 ++ 0#1 ++ 8#4) =
      .ok (.ctz .w32 .fast 0x00010000) := by decide

theorem test_decode_refuses_opcode : decode 0x000000000000000000000009 =
    .error (.reservedOpcode 9) := by decide
theorem test_decode_refuses_rsv0 : decode 0xFFFFFFFFFFFFFFFF00000056 =
    .error (.reservedBits 1 0) := by decide
theorem test_decode_refuses_rsv1 : decode 0x00000000000000000100A500 =
    .error (.reservedBits 0 1) := by decide

theorem test_encode_hasbtw : encode (.hasbtw .w64 0x0102030405060708 0x02 0x05) =
    0x010203040506070800050215 := by decide
theorem test_encode_popcnt : encode (.popcnt .w32 .fast 0x12345678) =
    0x000000001234567800000026 := by decide

/-! ### One transaction each: the operation rules' examples and the boundary vectors -/

theorem test_bcast_64 : answerTo true 0x00000000000000000000A510 =
    some ⟨0xA5A5A5A5A5A5A5A5, false, false⟩ := by decide
theorem test_bcast_32_zero_extends : answerTo true 0x00000000000000000000FF00 =
    some ⟨0x00000000FFFFFFFF, false, false⟩ := by decide
theorem test_haszero_32 : answerTo true 0x000000001100334400000001 =
    some ⟨1, false, false⟩ := by decide
theorem test_haszero_32_ignores_upper : answerTo true 0x0000FFFF1122334400000001 =
    some ⟨0, false, false⟩ := by decide
theorem test_haseq_64 : answerTo true 0x010203040506070800000512 =
    some ⟨1, false, false⟩ := by decide
theorem test_haseq_32_near_miss : answerTo true 0x000000007F80FF0000007E02 =
    some ⟨0, false, false⟩ := by decide
theorem test_haslt_equal_is_not_less : answerTo true 0x000000008080808000008003 =
    some ⟨0, false, false⟩ := by decide
theorem test_haslt_complement_branch : answerTo true 0x00000000FF7FFF8000008003 =
    some ⟨1, false, false⟩ := by decide
theorem test_hasgt_equal_is_not_greater : answerTo true 0x000000007F7F7F7F00007F04 =
    some ⟨0, false, false⟩ := by decide
theorem test_hasgt_low_branch : answerTo true 0x000000007E7E7F7E00007E04 =
    some ⟨1, false, false⟩ := by decide
theorem test_hasbtw_low_included : answerTo true 0x000000000506060600060505 =
    some ⟨1, false, false⟩ := by decide
theorem test_hasbtw_bad_bounds : statusOf true 0x000000001234567800808005 =
    some (true, false) := by decide
theorem test_popcnt_64_fallback : answerTo true 0x010203040506070800000016 =
    some ⟨13, false, false⟩ := by decide
theorem test_popcnt_64_fast : answerTo true 0xFFFFFFFFFFFFFFFF00000036 =
    some ⟨64, false, false⟩ := by decide
theorem test_clz_32_fallback : answerTo false 0x000000000001000000000027 =
    some ⟨15, false, false⟩ := by decide
theorem test_clz_32_zero_operand : statusOf true 0xFFFFFFFF0000000000000007 =
    some (true, false) := by decide
theorem test_ctz_64_fast : answerTo true 0x800000000000000000000038 =
    some ⟨63, false, false⟩ := by decide
theorem test_ctz_32_zero_operand : statusOf true 0x000000010000000000000028 =
    some (true, false) := by decide

/-- The response port follows the command port with no step in between (R25). -/
theorem test_port_follows_command :
    ((port true 0x000000000000000000000009).present 0x00000000000000000000A510).rsp =
      ⟨0xA5A5A5A5A5A5A5A5, false, false⟩ := by decide

theorem test_illegal_before_precondition : answerTo true 0x000000000000000000000047 =
    some ⟨0, false, true⟩ := by decide

/-! ### Intermediate words (95_test_vectors.md sections 3.2, 3.6, 3.7) -/

theorem test_zeroWord_spurious_lane : zeroWord (0x00000100 : BitVec 32) = 0x80808080 := by decide
theorem test_betweenWord : betweenWord (0x2F303A39 : BitVec 32) 48 58 = 0x00800080 := by decide
theorem test_pairSums : pairSums (0xDEADBEEFCAFEF00D : BitVec 64) = 0x9959699A85A9A009 := by decide
theorem test_byteSums :
    byteSums (0x3323333422434003 : BitVec 64) = 0x0605060704070403 := by decide
theorem test_smear : smear (0x00012340 : BitVec 32) = 0x0001FFFF := by decide

/-! ### The host's side (R13, R47, R48) -/

theorem test_assemble_text : assembleText "popcnt.32.f 0x12345678".toList =
    .ok 0x000000001234567800000026 := by decide
theorem test_assemble_refuses_suffix :
    assembleText "haseq.32.f 1, 2".toList = .error .suffixNotAllowed := by decide
theorem test_listing_result : (match runListing (port true 0) [] []
      [⟨.bcast, .w32, false, [.number 0x37]⟩, ⟨.popcnt, .w32, true, [.result 0]⟩] with
    | .finished _ rs => some (rs.map (·.r))
    | _ => none) = some [0x37373737, 20] := by decide
theorem test_signed_word : signedWord .w32 (-1) = 0x00000000FFFFFFFF := by decide

/-! ### The table word of a row, as the host gives it -/

theorem test_table_word : decodeTableWord 96 0x000000000001000000000008 =
    some (.ctz .w32 .fallback 0x10000) := by decide
theorem test_fetch_word_next_step :
    step (State.reset.withFetchWord 32 0xA500) =
      .next ((State.reset.withFetchWord 32 0xA500).reading ⟨0xA5A5A5A5, false, false⟩) := rfl

/-! ### Witnesses -/

theorem witness_DecodeEncodeRoundTrip :
    (Instr.clz .w32 .fast 0xFFFFFFFF).wellFormed = true := by decide
theorem witness_DecodedInstructionIsCanonical :
    decode 0xDEADBEEFDEADBEEF00FFA530 = .ok (.bcast .w64 0xA5) := by decide
theorem witness_StepRunsDecodedInstruction :
    decode (port true 0x010203040506070800050235).cmd =
      .ok (.hasbtw .w64 0x0102030405060708 2 5) := by decide

/-- One command per opcode, every field nonzero. -/
def commandWith (op : Nat) : Command :=
  BitVec.ofNat 96 (0xFEDCBA987654321000807F30 + op)

theorem witness_DecodeProcedureSelectsOperation : ∀ op : Fin 9,
    LegalCommand (port true (commandWith op)).cmd ∧
    (0xFEDCBA9876543210 : Field64).toNat = operandField (port true (commandWith op)).cmd ∧
    (0x7F : Byte).toNat = aField (port true (commandWith op)).cmd ∧
    (0x80 : Byte).toNat = bField (port true (commandWith op)).cmd ∧
    opField (port true (commandWith op)).cmd = op := by
  unfold LegalCommand
  decide

/-! The two cases of `IllegalCommandsAnswerIll`; the illegal ones serve `EveryCommandHasResponse` and
`StatusBitsPriority` as well. -/

theorem witness_IllegalCommandsAnswerIll_legal : LegalCommand 0xFFFFFFFFFFFFFFFF00FFFF38 := by
  unfold LegalCommand
  decide
theorem witness_IllegalCommandsAnswerIll_opcode : ¬ LegalCommand 0x000000000000000000000009 := by
  unfold LegalCommand
  decide
theorem witness_IllegalCommandsAnswerIll_rsv0 : ¬ LegalCommand 0x000000000000000000000048 := by
  unfold LegalCommand
  decide
theorem witness_IllegalCommandsAnswerIll_rsv1 : ¬ LegalCommand 0x000000000000000080000000 := by
  unfold LegalCommand
  decide
theorem witness_IgnoredFieldsDoNotMatter :
    LegalCommand 0xDEADBEEFDEADBEEF00FFA530 ∧ LegalCommand 0x00000000000000000000A510 ∧
      SameReadFields 0xDEADBEEFDEADBEEF00FFA530 0x00000000000000000000A510 := by
  unfold LegalCommand SameReadFields
  decide
theorem witness_EveryCommandHasResponse_ok :
    LegalCommand 0x000000000000000100000007 ∧ ¬ ViolatingCommand 0x000000000000000100000007 := by
  unfold LegalCommand ViolatingCommand
  decide
theorem witness_EveryCommandHasResponse_pv :
    LegalCommand 0x000000010000000000000007 ∧ ViolatingCommand 0x000000010000000000000007 := by
  unfold LegalCommand ViolatingCommand
  decide
theorem witness_PreconditionViolatedExactly :
    ∃ t, step (port true 0x000000000000000000000008) = .next t ∧ t.read.pv = true :=
  ⟨_, rfl, rfl⟩
theorem witness_StatusBitsPriority_a : LegalCommand 0x000000000000000000818005 ∧
    opField 0x000000000000000000818005 = 5 ∧ aField 0x000000000000000000818005 > 127 ∧
    bField 0x000000000000000000818005 > 128 := by
  unfold LegalCommand
  decide
theorem witness_StatusBitsPriority_ab : LegalCommand 0x000000000000000000050505 ∧
    opField 0x000000000000000000050505 = 5 ∧
    aField 0x000000000000000000050505 ≥ bField 0x000000000000000000050505 := by
  unfold LegalCommand
  decide
theorem witness_ResultWithinFormat : ∃ t, step (port true 0x00000000000000000000FF00) = .next t ∧
    t.read.pv = false ∧ t.read.ill = false :=
  ⟨_, rfl, rfl, rfl⟩
theorem witness_TransactionFrame : ∃ t, step (port false 0x000000000000000000000007) = .next t :=
  ⟨_, rfl⟩
theorem witness_ResponseDependsOnCommandOnly :
    (port true 0x12).cmd = (port false 0x12).cmd ∧ port true 0x12 ≠ port false 0x12 := by decide
theorem witness_TransactionsAreIndependent :
    ([0x07, 0x12] : List Command)[1]? = some 0x12 ∧
      ([0x12, 0x0F, 0x12] : List Command)[2]? = some 0x12 := by decide
theorem witness_TransactionsKeepPortsAgreeing :
    PortsAgree ⟨⟨true⟩, 0x00000000000000000000000F, ⟨0, false, true⟩, 5⟩ := by
  have hdec : decode 0x00000000000000000000000F = .error (.reservedOpcode 15) := by decide
  unfold PortsAgree Admitted State.rsp
  simp only [hdec]
  exact ⟨rfl, trivial⟩
theorem witness_OperandAndLaneNumbering : 7 < Width.w64.lanes ∧ 3 < 4 := by decide
theorem witness_BcastFillsEveryLane : 3 < Width.w32.lanes := by decide
theorem witness_ResponsePortFollowsCommand :
    (port true 0x12).draws = ((port true 0x12).reading ⟨0, false, false⟩).draws ∧
      port true 0x12 ≠ (port true 0x12).reading ⟨0, false, false⟩ := by decide
theorem witness_LaneOrderNotObservable :
    ((List.range Width.w32.lanes).map (lane (operand .w32 0x01027F80))).Perm
      ((List.range Width.w32.lanes).map (lane (operand .w32 0x807F0201))) ∧
    (127 : Byte).toNat ≤ 127 ∧ (128 : Byte).toNat ≤ 128 ∧
      (127 : Byte).toNat < (128 : Byte).toNat := by decide

/-! The example clauses of the operation statements speak of a state with one command on its port. -/

theorem witness_BcastAnswersProduct :
    (port true 0x0000000000000000_0000A510).cmd = 0x0000000000000000_0000A510 := rfl
theorem witness_HaszeroAnswersZeroLane :
    (port true 0x0000000011003344_00000001).cmd = 0x0000000011003344_00000001 := rfl
theorem witness_HaseqAnswersEqualLane_example :
    (port true 0x0102030405060708_00000512).cmd = 0x0102030405060708_00000512 := rfl
theorem witness_HasltAnswersLaneBelow :
    (port true 0x00000000F0E0D0C0_0000C103).cmd = 0x00000000F0E0D0C0_0000C103 := rfl
theorem witness_HasgtAnswersLaneAbove :
    (port true 0x0000000010208140_00008004).cmd = 0x0000000010208140_00008004 := rfl
theorem witness_PopcntAnswersBitCount :
    (port true 0x0102030405060708_00000036).cmd = 0x0102030405060708_00000016 ∨
      (port true 0x0102030405060708_00000036).cmd = 0x0102030405060708_00000036 := Or.inr rfl

theorem witness_BroadcastLaws_sum : (255 : Byte).toNat + (0 : Byte).toNat ≤ 255 := by decide
theorem witness_BroadcastLaws_difference : (255 : Byte).toNat ≤ (255 : Byte).toNat := by decide
theorem witness_BroadcastLaws_injective : bc 32 0xFF = bc 32 0xFF := rfl
theorem witness_ZeroWordLaneBits : 2 < Width.w32.lanes ∧
    lane (0x01000201 : BitVec 32) 2 = 0 ∧
    (∀ i, i < 2 → lane (0x01000201 : BitVec 32) i ≠ 0) ∧ 2 + 1 < Width.w32.lanes ∧
    lane (0x01000201 : BitVec 32) (2 + 1) = 1 := by decide
theorem witness_HaseqAnswersEqualLane : (127 : Byte).toNat ≤ 127 ∧ 7 < Width.w64.lanes := by decide
theorem witness_LessThanHelperContract : (128 : Byte).toNat ≤ 128 ∧ 3 < Width.w32.lanes ∧
    (lane (0x7F808080 : BitVec 32) 3).toNat < (128 : Byte).toNat ∧
    (∀ i, i < 3 → (128 : Byte).toNat ≤ (lane (0x7F808080 : BitVec 32) i).toNat) := by decide
theorem witness_GreaterThanHelperContract : (127 : Byte).toNat ≤ 127 := by decide
theorem witness_HasbtwAnswersLaneBetween :
    (127 : Byte).toNat ≤ 127 ∧ (128 : Byte).toNat ≤ 128 ∧
      (127 : Byte).toNat < (128 : Byte).toNat := by decide
theorem witness_HasbtwBadBoundsReportPv_a : (128 : Byte).toNat > 127 := by decide
theorem witness_HasbtwBadBoundsReportPv_b : (129 : Byte).toNat > 128 := by decide
theorem witness_HasbtwBadBoundsReportPv_ab : (5 : Byte).toNat ≥ (5 : Byte).toNat := by decide
theorem witness_BetweenWordIsExact :
    (0 : Byte).toNat ≤ 127 ∧ (1 : Byte).toNat ≤ 128 ∧ (0 : Byte).toNat < (1 : Byte).toNat ∧
      7 < Width.w64.lanes ∧ 6 < 7 ∧ 1 ≤ (128 : Byte).toNat ∧ (128 : Byte).toNat ≤ 128 := by decide
theorem witness_PredicateFormulasByArithmetic :
    (127 : Byte).toNat ≤ 128 ∧ (127 : Byte).toNat ≤ 127 ∧ (128 : Byte).toNat ≤ 128 ∧
      (127 : Byte).toNat < (128 : Byte).toNat := by decide
theorem witness_PredicatePiecesRelate :
    (128 : Byte).toNat ≥ 128 ∧ (127 : Byte).toNat ≥ 127 := by decide
theorem witness_PathSelection : operand .w32 0xFFFFFFFF80000000 ≠ 0 := by decide
theorem witness_PathsAgree : (0x8000000000000000 : BitVec Width.w64.bits) ≠ 0 := by decide
theorem witness_ClzAnswersLeadingZeros : 31 < Width.w32.bits ∧
    (0x1080000001 : Field64).getLsbD 31 = true ∧
    (∀ j, 31 < j → j < Width.w32.bits → (0x1080000001 : Field64).getLsbD j = false) := by
  refine ⟨by decide, by decide, fun j h1 h2 => ?_⟩
  simp only [Width.bits] at h2
  omega
theorem witness_CtzAnswersTrailingZeros : 0 < Width.w64.bits ∧
    (0xFFFFFFFFFFFFFFFF : Field64).getLsbD 0 = true ∧
    (∀ j, j < 0 → (0xFFFFFFFFFFFFFFFF : Field64).getLsbD j = false) := by
  refine ⟨by decide, by decide, fun j h => absurd h (Nat.not_lt_zero j)⟩
theorem witness_SmearFillsBelowHighest : (1 : BitVec Width.w32.bits) ≠ 0 := by decide
theorem witness_LowestBitIsolated : (0x80000000 : BitVec Width.w32.bits) ≠ 0 := by decide
theorem witness_ZeroOperandReportsPv :
    (0xFFFFFFFF00000000 : Field64).toNat % 2 ^ Width.w32.bits = 0 := by decide
theorem witness_TwoBitWords : 0 ≤ 63 ∧ 63 < Width.w64.bits := by decide
theorem witness_CountRelations :
    (0xFFFFFFFF : Field64).toNat < 2 ^ 32 ∧ (0xFFFFFFFF : Field64) ≠ 0 := by decide
theorem witness_AssemblerLinesAreInstructions :
    (⟨.hasbtw, .w32, false, [0xFFFFFFFF, 255, 0]⟩ : AsmLine).assemble =
      .ok (.hasbtw .w32 0xFFFFFFFF 255 0) := by decide
theorem witness_SignedWordIsBitPattern :
    -(2 ^ (Width.w64.bits - 1)) ≤ (-9223372036854775808 : Int) ∧
      (-9223372036854775808 : Int) < 2 ^ (Width.w64.bits - 1) := by decide

end Sys2Proof.Tests
end

/-! SUPPORT. The lane view of words, the contracts of the byte predicates and of the bit counts, and the
statements of 00_scope.md they settle. -/

namespace Sys2Proof.Machine

/-! ## Words as lanes -/

theorem bits_eq_eight_mul_lanes (w : Width) : w.bits = 8 * w.lanes := by
  cases w <;> rfl

/-- A lane of the word lies inside it. -/
theorem lane_inside {w : Width} {i : Nat} (hi : i < w.lanes) : 8 * i + 8 ≤ w.bits := by
  rw [bits_eq_eight_mul_lanes]
  omega

/-- Lane `i` as a number (R7). -/
theorem toNat_lane {W : Nat} (x : BitVec W) (i : Nat) :
    (lane x i).toNat = x.toNat / 2 ^ (8 * i) % 256 := by
  simp [lane, Nat.shiftRight_eq_div_pow]

theorem toNat_operand (w : Width) (x : Field64) :
    (operand w x).toNat = x.toNat % 2 ^ w.bits := by
  simp [operand]

/-- `anyLane` is a bounded existential over the lanes (R10). -/
theorem anyLane_eq_true_iff {w : Width} (x : BitVec w.bits) (P : Byte → Bool) :
    anyLane x P = true ↔ ∃ i, i < w.lanes ∧ P (lane x i) = true := by
  have hlanes : w.bits / 8 = w.lanes := by cases w <;> rfl
  simp [anyLane, hlanes]

/-- Bit `k` of a word is bit `k % 8` of lane `k / 8` (R7). -/
theorem getLsbD_eq_lane {W : Nat} (x : BitVec W) (k : Nat) :
    x.getLsbD k = (lane x (k / 8)).getLsbD (k % 8) := by
  have hmod : k % 8 < 8 := Nat.mod_lt _ (by decide)
  rw [getLsbD_lane, Nat.div_add_mod, decide_eq_true hmod, Bool.true_and]

/-- A word is its lanes. -/
theorem eq_of_lane_eq {W n : Nat} (hW : W ≤ 8 * n) {x y : BitVec W}
    (h : ∀ i, i < n → lane x i = lane y i) : x = y := by
  refine BitVec.eq_of_getLsbD_eq fun k hk => ?_
  rw [getLsbD_eq_lane x, getLsbD_eq_lane y, h (k / 8) (by omega)]

@[simp] theorem lane_zero (W i : Nat) : lane (0 : BitVec W) i = 0 := by
  simp [lane]

@[simp] theorem lane_and {W : Nat} (x y : BitVec W) (i : Nat) :
    lane (x &&& y) i = lane x i &&& lane y i :=
  BitVec.extractLsb'_and

@[simp] theorem lane_or {W : Nat} (x y : BitVec W) (i : Nat) :
    lane (x ||| y) i = lane x i ||| lane y i :=
  BitVec.extractLsb'_or

@[simp] theorem lane_xor {W : Nat} (x y : BitVec W) (i : Nat) :
    lane (x ^^^ y) i = lane x i ^^^ lane y i :=
  BitVec.extractLsb'_xor

theorem lane_not {W i : Nat} (hi : 8 * i + 8 ≤ W) (x : BitVec W) :
    lane (~~~x) i = ~~~(lane x i) := by
  refine BitVec.eq_of_getLsbD_eq fun b hb => ?_
  have hin : 8 * i + b < W := by omega
  rw [getLsbD_lane, BitVec.getLsbD_not, BitVec.getLsbD_not, getLsbD_lane]
  simp [hb, hin]

/-- A right shift by at most a lane moves in the low bits of the lane above. -/
theorem lane_ushiftRight {W k : Nat} (hk : k ≤ 8) (x : BitVec W) (i : Nat) :
    lane (x >>> k) i = lane x i >>> k ||| lane x (i + 1) <<< (8 - k) := by
  refine BitVec.eq_of_getLsbD_eq fun b hb => ?_
  simp only [getLsbD_lane, BitVec.getLsbD_ushiftRight, BitVec.getLsbD_or, BitVec.getLsbD_shiftLeft]
  by_cases h : k + b < 8
  · have hlow : b < 8 - k := by omega
    simp [h, hb, hlow, Nat.add_left_comm]
  · have hhigh : ¬ b < 8 - k := by omega
    have hinside : b - (8 - k) < 8 := by omega
    have hbit : 8 * (i + 1) + (b - (8 - k)) = k + (8 * i + b) := by omega
    simp [h, hb, hhigh, hinside, hbit]

/-- A left shift by one lane leaves lane 0 empty. -/
theorem lane_shiftLeft_eight_zero {W : Nat} (x : BitVec W) : lane (x <<< 8) 0 = 0 := by
  refine BitVec.eq_of_getLsbD_eq fun b hb => ?_
  have hlow : 8 * 0 + b < 8 := by omega
  rw [getLsbD_lane, BitVec.getLsbD_shiftLeft, decide_eq_true hlow]
  simp

/-- A left shift by one lane moves every lane up by one. -/
theorem lane_shiftLeft_eight_succ {W i : Nat} (hi : 8 * (i + 1) + 8 ≤ W) (x : BitVec W) :
    lane (x <<< 8) (i + 1) = lane x i := by
  refine BitVec.eq_of_getLsbD_eq fun b hb => ?_
  have hin : 8 * (i + 1) + b < W := by omega
  have hbit : 8 * (i + 1) + b - 8 = 8 * i + b := by omega
  have habove : ¬ 8 * (i + 1) + b < 8 := by omega
  simp only [getLsbD_lane, BitVec.getLsbD_shiftLeft, hin, hbit, habove]
  simp

/-! ## Sums and differences without carries between lanes -/

theorem two_pow_eight_mul_succ (i : Nat) : 2 ^ (8 * (i + 1)) = 2 ^ (8 * i) * 256 := by
  rw [Nat.mul_succ, pow_add]
  rfl

/-- While no lane sum reaches 256, nothing is carried out of the low `i` lanes. -/
theorem low_lanes_add_lt {W : Nat} {x y : BitVec W} {i : Nat}
    (h : ∀ j, j < i → (lane x j).toNat + (lane y j).toNat < 256) :
    x.toNat % 2 ^ (8 * i) + y.toNat % 2 ^ (8 * i) < 2 ^ (8 * i) := by
  induction i with
  | zero => simp [Nat.mod_one]
  | succ i ih =>
    have hlow := ih fun j hj => h j (by omega)
    have hlane : 2 ^ (8 * i) * ((lane x i).toNat + (lane y i).toNat) ≤ 2 ^ (8 * i) * 255 :=
      Nat.mul_le_mul_left _ (Nat.le_of_lt_succ (h i (by omega)))
    rw [toNat_lane, toNat_lane, Nat.mul_add] at hlane
    rw [two_pow_eight_mul_succ, Nat.mod_mul, Nat.mod_mul]
    omega

/-- A lane of a sum is the sum of the lanes, while no lane below it carries. -/
theorem lane_add {W i : Nat} (hi : 8 * i + 8 ≤ W) {x y : BitVec W}
    (h : ∀ j, j < i → (lane x j).toNat + (lane y j).toNat < 256) :
    lane (x + y) i = lane x i + lane y i := by
  have hlow := low_lanes_add_lt h
  have hsplit : 2 ^ W = 2 ^ (8 * i) * 2 ^ (W - 8 * i) := by
    rw [← pow_add, Nat.add_sub_cancel' (by omega)]
  have hdvd : 256 ∣ 2 ^ (W - 8 * i) := Nat.pow_dvd_pow 2 (show 8 ≤ W - 8 * i by omega)
  refine BitVec.eq_of_toNat_eq ?_
  rw [toNat_lane, BitVec.toNat_add, hsplit, Nat.mod_mul_right_div_self, Nat.mod_mod_of_dvd _ hdvd,
    Nat.add_div (by positivity), if_neg (by omega), BitVec.toNat_add, toNat_lane, toNat_lane]
  simp [Nat.add_mod]

/-- A lane of a difference is the difference of the lanes, while no lane below it borrows: then the
sum `(x - y) + y` carries nowhere below it either. -/
theorem lane_sub {W i : Nat} (hi : 8 * i + 8 ≤ W) {x y : BitVec W}
    (h : ∀ j, j < i → (lane y j).toNat ≤ (lane x j).toNat) :
    lane (x - y) i = lane x i - lane y i := by
  induction i using Nat.strong_induction_on with
  | _ i ih =>
    have hcarry : ∀ j, j < i → (lane (x - y) j).toNat + (lane y j).toNat < 256 := by
      intro j hj
      have hle : lane y j ≤ lane x j := h j hj
      have hlane := ih j hj (by omega) fun k hk => h k (by omega)
      rw [hlane, BitVec.toNat_sub_of_le hle, Nat.sub_add_cancel (h j hj)]
      exact (lane x j).isLt
    have hsum := lane_add hi hcarry
    rw [BitVec.sub_add_cancel] at hsum
    rw [hsum, BitVec.add_sub_cancel]

/-! ## The repunit multiplier -/

/-- The word with a 1 in each of its `k` low lanes. -/
def repunit (W : Nat) : Nat → BitVec W
  | 0 => 0
  | k + 1 => repunit W k <<< 8 + 1#W

/-- `REP_W` has a 1 in every lane (R54). -/
theorem rep_eq_repunit (w : Width) : rep w.bits = repunit w.bits w.lanes := by
  cases w <;> decide

theorem mul_repunit_succ {W : Nat} (x : BitVec W) (k : Nat) :
    x * repunit W (k + 1) = (x * repunit W k) <<< 8 + x := by
  rw [repunit, BitVec.mul_add, BitVec.mul_one, BitVec.shiftLeft_eq_mul_twoPow,
    BitVec.shiftLeft_eq_mul_twoPow, BitVec.mul_assoc]

/-- Multiplying by the repunit sums lanes: while the sum stays below 256, lane `i` of the product is
the sum of the lanes up to `i`. -/
theorem lane_mul_repunit {W : Nat} (x : BitVec W) {k i : Nat} (hik : i < k) (hi : 8 * i + 8 ≤ W)
    (hsum : ∑ j ∈ Finset.range (i + 1), (lane x j).toNat < 256) :
    (lane (x * repunit W k) i).toNat = ∑ j ∈ Finset.range (i + 1), (lane x j).toNat := by
  induction k generalizing i with
  | zero => omega
  | succ k ih =>
    have hshift : ∀ j, j ≤ i → (lane ((x * repunit W k) <<< 8) j).toNat =
        ∑ l ∈ Finset.range j, (lane x l).toNat := by
      intro j hj
      cases j with
      | zero => simp [lane_shiftLeft_eight_zero]
      | succ j =>
        have hmono : ∑ l ∈ Finset.range (j + 1), (lane x l).toNat ≤
            ∑ l ∈ Finset.range (i + 1), (lane x l).toNat :=
          Finset.sum_le_sum_of_subset (Finset.range_mono (by omega))
        rw [lane_shiftLeft_eight_succ (by omega)]
        exact ih (by omega) (by omega) (by omega)
    have hstep : ∀ j, j ≤ i →
        (lane ((x * repunit W k) <<< 8) j).toNat + (lane x j).toNat < 256 := by
      intro j hj
      have hmono : ∑ l ∈ Finset.range (j + 1), (lane x l).toNat ≤
          ∑ l ∈ Finset.range (i + 1), (lane x l).toNat :=
        Finset.sum_le_sum_of_subset (Finset.range_mono (by omega))
      rw [hshift j hj, ← Finset.sum_range_succ]
      omega
    have hlast := hstep i le_rfl
    rw [mul_repunit_succ, lane_add hi fun j hj => hstep j (by omega), BitVec.toNat_add,
      Nat.mod_eq_of_lt hlast, hshift i le_rfl, ← Finset.sum_range_succ]

/-- Every lane of a broadcast word holds the byte (R53). -/
theorem lane_bc {w : Width} {i : Nat} (hi : i < w.lanes) (c : Byte) :
    lane (bc w.bits c) i = c := by
  have hlane : ∀ j, lane (c.setWidth w.bits) j = if j = 0 then c else 0 := by
    intro j
    refine BitVec.eq_of_getLsbD_eq fun b hb => ?_
    rw [getLsbD_lane, BitVec.getLsbD_setWidth]
    cases j with
    | zero =>
      have hin : b < w.bits := by have := lane_inside hi; omega
      simp [hb, hin]
    | succ j =>
      have habove : c.getLsbD (8 * (j + 1) + b) = false := BitVec.getLsbD_of_ge c _ (by omega)
      simp [habove]
  have hsum : ∑ j ∈ Finset.range (i + 1), (lane (c.setWidth w.bits) j).toNat = c.toNat := by
    simp [hlane, apply_ite BitVec.toNat]
  refine BitVec.eq_of_toNat_eq ?_
  rw [bc, rep_eq_repunit, lane_mul_repunit _ hi (lane_inside hi) (hsum ▸ c.isLt), hsum]

/-! ## Words masked with `H_W` -/

theorem byte_and_high_eq_zero_iff : ∀ v : Byte, v &&& 0x80 = 0 ↔ v.msb = false := by decide

/-- A word masked with `H_W` is nonzero exactly when some lane has its high bit set. -/
theorem and_bc_high_ne_zero_iff {w : Width} (y : BitVec w.bits) :
    y &&& bc w.bits 0x80 ≠ 0 ↔ ∃ i, i < w.lanes ∧ (lane y i).msb = true := by
  have hlane : ∀ i, i < w.lanes → lane (y &&& bc w.bits 0x80) i = lane y i &&& 0x80 :=
    fun i hi => by rw [lane_and, lane_bc hi]
  constructor
  · intro hne
    by_contra hnone
    refine hne (eq_of_lane_eq (bits_eq_eight_mul_lanes w).le fun i hi => ?_)
    rw [hlane i hi, lane_zero, byte_and_high_eq_zero_iff]
    simpa using fun h => hnone ⟨i, hi, h⟩
  · rintro ⟨i, hi, hmsb⟩ hzero
    have := hlane i hi
    rw [hzero, lane_zero, eq_comm, byte_and_high_eq_zero_iff] at this
    simp [hmsb] at this

/-! ## Byte facts -/

theorem toNat_byte_and_low : ∀ v : Byte, (v &&& 0x7F).toNat = v.toNat % 128 := by decide

theorem byte_msb_iff (v : Byte) : v.msb = true ↔ 128 ≤ v.toNat := by
  simp [BitVec.msb_eq_decide]

theorem toNat_byte_not (v : Byte) : (~~~v).toNat = 255 - v.toNat := by
  simp [BitVec.toNat_not]

theorem toNat_255_sub (a : Byte) : (255 - a : Byte).toNat = 255 - a.toNat :=
  BitVec.toNat_sub_of_le (x := (255 : Byte)) (Nat.le_of_lt_succ a.isLt)

/-! ## The helpers `LT128` and `GT127` -/

/-- A detector that is right about the lowest lane of a kind finds whether there is one: its answer
at a lane need only be exact when no lane below is of that kind. -/
theorem exists_lt_iff_of_exact_at_lowest {n : Nat} {P Q : Nat → Prop}
    (h : ∀ i, i < n → (∀ j, j < i → ¬ P j) → (Q i ↔ P i)) :
    (∃ i, i < n ∧ Q i) ↔ ∃ i, i < n ∧ P i := by
  classical
  constructor
  · rintro ⟨i, hi, hQ⟩
    by_contra hnone
    have hP : ∀ j, j < n → ¬ P j := fun j hj hPj => hnone ⟨j, hj, hPj⟩
    exact hP i hi ((h i hi fun j hj => hP j (by omega)).mp hQ)
  · intro hex
    obtain ⟨hi, hP⟩ := Nat.find_spec hex
    refine ⟨Nat.find hex, hi, (h _ hi fun j hj hPj => ?_).mpr hP⟩
    exact Nat.find_min hex hj ⟨by omega, hPj⟩

/-- The bit of a lane in `LT128`, without a borrow from below (R64). -/
theorem byte_sub_and_not_msb_iff {v a : Byte} (ha : a.toNat ≤ 128) :
    ((v - a) &&& ~~~v).msb = true ↔ v.toNat < a.toNat := by
  have hv := v.isLt
  rw [BitVec.msb_and, Bool.and_eq_true, byte_msb_iff, byte_msb_iff, toNat_byte_not,
    BitVec.toNat_sub]
  omega

/-- While no lane below is less than `a`, the bit of a lane in `LT128` is exact (R64). -/
theorem lt128_lane_msb_iff {w : Width} (x : BitVec w.bits) {a : Byte} (ha : a.toNat ≤ 128) {i : Nat}
    (hi : i < w.lanes) (hlow : ∀ j, j < i → ¬ (lane x j).toNat < a.toNat) :
    (lane ((x - bc w.bits a) &&& ~~~x) i).msb = true ↔ (lane x i).toNat < a.toNat := by
  have hborrow : ∀ j, j < i → (lane (bc w.bits a) j).toNat ≤ (lane x j).toNat := by
    intro j hj
    rw [lane_bc (by omega)]
    exact Nat.le_of_not_lt (hlow j hj)
  rw [lane_and, lane_sub (lane_inside hi) hborrow, lane_bc hi, lane_not (lane_inside hi),
    byte_sub_and_not_msb_iff ha]

/-- The contract of `LT128` (R64). -/
theorem lt128_ne_zero_iff {w : Width} (x : BitVec w.bits) {a : Byte} (ha : a.toNat ≤ 128) :
    lt128 x a ≠ 0 ↔ ∃ i, i < w.lanes ∧ (lane x i).toNat < a.toNat := by
  rw [lt128, and_bc_high_ne_zero_iff]
  exact exists_lt_iff_of_exact_at_lowest fun i hi => lt128_lane_msb_iff x ha hi

/-- While no lane below is greater than `a`, the bit of a lane in `GT127` is exact (R66). -/
theorem gt127_lane_msb_iff {w : Width} (x : BitVec w.bits) {a : Byte} (ha : a.toNat ≤ 127) {i : Nat}
    (hi : i < w.lanes) (hlow : ∀ j, j < i → ¬ (lane x j).toNat > a.toNat) :
    (lane ((x + bc w.bits (127 - a)) ||| x) i).msb = true ↔ (lane x i).toNat > a.toNat := by
  have hbias : (127 - a : Byte).toNat = 127 - a.toNat :=
    BitVec.toNat_sub_of_le (x := (127 : Byte)) ha
  have hcarry : ∀ j, j < i →
      (lane x j).toNat + (lane (bc w.bits (127 - a)) j).toNat < 256 := by
    intro j hj
    have := hlow j hj
    rw [lane_bc (by omega), hbias]
    omega
  have hv := (lane x i).isLt
  rw [lane_or, lane_add (lane_inside hi) hcarry, lane_bc hi, BitVec.msb_or, Bool.or_eq_true,
    byte_msb_iff, byte_msb_iff, BitVec.toNat_add, hbias]
  omega

/-- The contract of `GT127` (R66). -/
theorem gt127_ne_zero_iff {w : Width} (x : BitVec w.bits) {a : Byte} (ha : a.toNat ≤ 127) :
    gt127 x a ≠ 0 ↔ ∃ i, i < w.lanes ∧ (lane x i).toNat > a.toNat := by
  rw [gt127, and_bc_high_ne_zero_iff]
  exact exists_lt_iff_of_exact_at_lowest fun i hi => gt127_lane_msb_iff x ha hi

/-- A lane of the complement, as a number. -/
theorem toNat_lane_not {w : Width} {i : Nat} (hi : i < w.lanes) (x : BitVec w.bits) :
    (lane (~~~x) i).toNat = 255 - (lane x i).toNat := by
  rw [lane_not (lane_inside hi), toNat_byte_not]

/-! ## The five predicates decide their lane conditions -/

/-- The zero-byte detector is `LT128` at 1 (R74). -/
theorem zeroWord_eq_lt128 {W : Nat} (x : BitVec W) : zeroWord x = lt128 x 1 := rfl

/-- A predicate that holds exactly when some lane qualifies is `anyLane`. -/
theorem eq_anyLane_of_iff {w : Width} {x : BitVec w.bits} {c : Bool} {P : Byte → Bool}
    (h : c = true ↔ ∃ i, i < w.lanes ∧ P (lane x i) = true) : c = anyLane x P :=
  Bool.eq_iff_iff.mpr (h.trans (anyLane_eq_true_iff x P).symm)

/-- The contract of `HASZERO` (R58). -/
theorem haszero_eq_anyLane {w : Width} (x : BitVec w.bits) :
    haszero x = anyLane x fun v => v == 0 := by
  refine eq_anyLane_of_iff ?_
  have hzero : ∀ v : Byte, v.toNat < (1 : Byte).toNat ↔ (v == 0) = true := by decide
  rw [haszero, bne_iff_ne, zeroWord_eq_lt128, lt128_ne_zero_iff x (by decide)]
  simp only [hzero]

/-- The contract of `HASEQ` (R62). -/
theorem haseq_eq_anyLane {w : Width} (x : BitVec w.bits) (a : Byte) :
    haseq x a = anyLane x fun v => v == a := by
  refine eq_anyLane_of_iff ?_
  rw [haseq, haszero_eq_anyLane, anyLane_eq_true_iff]
  refine exists_congr fun i => and_congr_right fun hi => ?_
  rw [lane_xor, lane_bc hi, beq_iff_eq, beq_iff_eq]
  exact BitVec.xor_eq_zero_iff

/-- The contract of `HASLT`, both branches (R67, R68). -/
theorem haslt_eq_anyLane {w : Width} (x : BitVec w.bits) (a : Byte) :
    haslt x a = anyLane x fun v => v.toNat < a.toNat := by
  refine eq_anyLane_of_iff ?_
  have ha := a.isLt
  simp only [decide_eq_true_eq]
  by_cases h : a.toNat < 128
  · rw [haslt, if_pos h, bne_iff_ne, lt128_ne_zero_iff x h.le]
  · rw [haslt, if_neg h, bne_iff_ne, gt127_ne_zero_iff _ (by rw [toNat_255_sub]; omega)]
    refine exists_congr fun i => and_congr_right fun hi => ?_
    rw [toNat_lane_not hi, toNat_255_sub]
    omega

/-- The contract of `HASGT`, both branches (R69, R70). -/
theorem hasgt_eq_anyLane {w : Width} (x : BitVec w.bits) (a : Byte) :
    hasgt x a = anyLane x fun v => v.toNat > a.toNat := by
  refine eq_anyLane_of_iff ?_
  simp only [decide_eq_true_eq]
  by_cases h : a.toNat ≥ 127
  · rw [hasgt, if_pos h, bne_iff_ne, lt128_ne_zero_iff _ (by rw [toNat_255_sub]; omega)]
    refine exists_congr fun i => and_congr_right fun hi => ?_
    have hv := (lane x i).isLt
    rw [toNat_lane_not hi, toNat_255_sub]
    omega
  · rw [hasgt, if_neg h, bne_iff_ne, gt127_ne_zero_iff x (by omega)]

/-- Every lane bit of `B_W` is exact: with seven-bit lanes neither the difference borrows nor the sum
carries (R73). -/
theorem betweenWord_lane_msb_iff {w : Width} (x : BitVec w.bits) {a b : Byte} (ha : a.toNat ≤ 127)
    (hb : b.toNat ≤ 128) {i : Nat} (hi : i < w.lanes) :
    (lane ((bc w.bits (127 + b) - (x &&& lowBits w.bits)) &&& ~~~x &&&
        ((x &&& lowBits w.bits) + bc w.bits (128 - a))) i).msb = true ↔
      a.toNat ≤ (lane x i).toNat ∧ (lane x i).toNat < b.toNat := by
  have hlow : ∀ j, j < w.lanes →
      (lane (x &&& lowBits w.bits) j).toNat = (lane x j).toNat % 128 := by
    intro j hj
    rw [lane_and, lowBits, lane_bc hj, toNat_byte_and_low]
  have hupper : (127 + b : Byte).toNat = 127 + b.toNat :=
    BitVec.toNat_add_of_lt (show 127 + b.toNat < 256 by omega)
  have hlower : (128 - a : Byte).toNat = 128 - a.toNat :=
    BitVec.toNat_sub_of_le (x := (128 : Byte)) (show a.toNat ≤ 128 by omega)
  have hborrow : ∀ j, j < i →
      (lane (x &&& lowBits w.bits) j).toNat ≤ (lane (bc w.bits (127 + b)) j).toNat := by
    intro j hj
    rw [hlow j (by omega), lane_bc (by omega), hupper]
    omega
  have hcarry : ∀ j, j < i →
      (lane (x &&& lowBits w.bits) j).toNat + (lane (bc w.bits (128 - a)) j).toNat < 256 := by
    intro j hj
    rw [hlow j (by omega), lane_bc (by omega), hlower]
    omega
  have hv := (lane x i).isLt
  rw [lane_and, lane_and _ (~~~x), lane_sub (lane_inside hi) hborrow,
    lane_add (lane_inside hi) hcarry, lane_bc hi, lane_bc hi, BitVec.msb_and, BitVec.msb_and,
    Bool.and_eq_true, Bool.and_eq_true, byte_msb_iff, byte_msb_iff, byte_msb_iff,
    toNat_lane_not hi, BitVec.toNat_sub, BitVec.toNat_add _ (128 - a), hlow i hi, hupper, hlower]
  omega

/-- The contract of `HASBTW` inside its bounds (R72, R73). -/
theorem hasbtw_eq_anyLane {w : Width} (x : BitVec w.bits) {a b : Byte} (ha : a.toNat ≤ 127)
    (hb : b.toNat ≤ 128) :
    hasbtw x a b = anyLane x fun v => a.toNat ≤ v.toNat && v.toNat < b.toNat := by
  refine eq_anyLane_of_iff ?_
  rw [hasbtw, bne_iff_ne, betweenWord, highBits, and_bc_high_ne_zero_iff]
  refine exists_congr fun i => and_congr_right fun hi => ?_
  rw [betweenWord_lane_msb_iff x ha hb hi, Bool.and_eq_true, decide_eq_true_eq, decide_eq_true_eq]

/-! ## The reference popcount -/

/-- The bits of a word are the bits of its lanes (R81). -/
theorem countP_range_eq_sum_popcountRef_lane {W : Nat} (x : BitVec W) (n : Nat) :
    ((List.range (8 * n)).countP fun i => x.getLsbD i) =
      ∑ i ∈ Finset.range n, popcountRef (lane x i) := by
  induction n with
  | zero => rfl
  | succ n ih =>
    have hlane : ((List.range 8).map fun k => 8 * n + k).countP (fun i => x.getLsbD i) =
        popcountRef (lane x n) := by
      rw [List.countP_map, popcountRef]
      refine List.countP_congr fun k hk => ?_
      rw [getLsbD_lane, decide_eq_true (List.mem_range.mp hk), Bool.true_and, Function.comp_apply]
    rw [Nat.mul_succ, List.range_add, List.countP_append, ih, hlane, Finset.sum_range_succ]

theorem popcountRef_eq_sum_lanes {w : Width} (x : BitVec w.bits) :
    popcountRef x = ∑ i ∈ Finset.range w.lanes, popcountRef (lane x i) := by
  rw [← countP_range_eq_sum_popcountRef_lane, ← bits_eq_eight_mul_lanes, popcountRef]

theorem popcountRef_le {W : Nat} (x : BitVec W) : popcountRef x ≤ W := by
  simpa [popcountRef] using List.countP_le_length (p := fun i => x.getLsbD i) (l := List.range W)

/-- The complement has the bits the word has not (R81). -/
theorem popcountRef_not {W : Nat} (x : BitVec W) : popcountRef (~~~x) = W - popcountRef x := by
  have hsplit := List.length_eq_countP_add_countP (fun i => x.getLsbD i) (l := List.range W)
  have hnot : popcountRef (~~~x) =
      (List.range W).countP fun i => decide ¬ x.getLsbD i = true := by
    refine List.countP_congr fun i hi => ?_
    simp [List.mem_range.mp hi]
  rw [List.length_range] at hsplit
  rw [hnot, popcountRef]
  omega

/-- A word whose set bits are those below `k` has `k` set bits. -/
theorem popcountRef_of_getLsbD_eq_lt {W k : Nat} {x : BitVec W} (hk : k ≤ W)
    (h : ∀ i, i < W → x.getLsbD i = decide (i < k)) : popcountRef x = k := by
  have hsplit : List.range W = List.range k ++ (List.range (W - k)).map fun i => k + i := by
    rw [← List.range_add, Nat.add_sub_cancel' hk]
  have hlow : (List.range k).countP (fun i => x.getLsbD i) = k := by
    rw [List.countP_eq_length.mpr, List.length_range]
    intro i hi
    have hi' := List.mem_range.mp hi
    rw [h i (by omega), decide_eq_true hi']
  have hhigh : ((List.range (W - k)).map fun i => k + i).countP (fun i => x.getLsbD i) = 0 := by
    rw [List.countP_eq_zero]
    intro i hi
    obtain ⟨j, hj, rfl⟩ := List.mem_map.mp hi
    have hj' := List.mem_range.mp hj
    rw [h (k + j) (by omega)]
    simp
  rw [popcountRef, hsplit, List.countP_append, hlow, hhigh, Nat.add_zero]

/-! ## The popcount fallback, lane by lane -/

/-! Each mask of R79 repeats its byte. -/

theorem lane_maskBy_three {w : Width} {i : Nat} (hi : i < w.lanes) :
    lane (maskBy w.bits 3) i = maskBy 8 3 := by
  have hmask : maskBy w.bits 3 = bc w.bits (maskBy 8 3) := by cases w <;> decide
  rw [hmask, lane_bc hi]

theorem lane_maskBy_five {w : Width} {i : Nat} (hi : i < w.lanes) :
    lane (maskBy w.bits 5) i = maskBy 8 5 := by
  have hmask : maskBy w.bits 5 = bc w.bits (maskBy 8 5) := by cases w <;> decide
  rw [hmask, lane_bc hi]

theorem lane_maskBy_seventeen {w : Width} {i : Nat} (hi : i < w.lanes) :
    lane (maskBy w.bits 17) i = maskBy 8 17 := by
  have hmask : maskBy w.bits 17 = bc w.bits (maskBy 8 17) := by cases w <;> decide
  rw [hmask, lane_bc hi]

/-- A mask drops what lies outside it. -/
theorem or_and_of_and_eq_zero {W : Nat} {y z m : BitVec W} (hz : z &&& m = 0) :
    (y ||| z) &&& m = y &&& m := by
  rw [BitVec.and_comm, BitVec.and_or_distrib_left, BitVec.and_comm m z, hz, BitVec.and_comm m y]
  exact BitVec.or_zero

/-- A masked right shift stays within the lanes where the mask drops the bits of the lane above. -/
theorem lane_ushiftRight_and {W k : Nat} (hk : k ≤ 8) (x m : BitVec W) {i : Nat}
    (hm : ∀ u : Byte, u <<< (8 - k) &&& lane m i = 0) :
    lane ((x >>> k) &&& m) i = lane x i >>> k &&& lane m i := by
  rw [lane_and, lane_ushiftRight hk, or_and_of_and_eq_zero (hm _)]

theorem byte_shiftRight_and_mask_le :
    ∀ v : Byte, (v >>> 1 &&& maskBy 8 3).toNat ≤ v.toNat := by decide

/-- Step `s1` works lane by lane (R81). -/
theorem lane_pairSums {w : Width} (x : BitVec w.bits) {i : Nat} (hi : i < w.lanes) :
    lane (pairSums x) i = pairSums (lane x i) := by
  have hdrop : ∀ u : Byte, u <<< 7 &&& maskBy 8 3 = 0 := by decide
  have hshift : ∀ j, j < w.lanes →
      lane ((x >>> 1) &&& maskBy w.bits 3) j = lane x j >>> 1 &&& maskBy 8 3 := by
    intro j hj
    rw [lane_ushiftRight_and (by decide) x _ (by rw [lane_maskBy_three hj]; exact hdrop),
      lane_maskBy_three hj]
  rw [pairSums, lane_sub (lane_inside hi) fun j hj => ?_, hshift i hi, pairSums]
  rw [hshift j (by omega)]
  exact byte_shiftRight_and_mask_le _

/-- Step `s2` works lane by lane (R81). -/
theorem lane_nibbleSums {w : Width} (x : BitVec w.bits) {i : Nat} (hi : i < w.lanes) :
    lane (nibbleSums x) i = nibbleSums (lane x i) := by
  have hdrop : ∀ u : Byte, u <<< 6 &&& maskBy 8 5 = 0 := by decide
  have hmask : ∀ v : Byte, (v &&& maskBy 8 5).toNat < 128 := by decide
  have hlow : ∀ j, j < w.lanes → lane (x &&& maskBy w.bits 5) j = lane x j &&& maskBy 8 5 := by
    intro j hj
    rw [lane_and, lane_maskBy_five hj]
  have hshift : ∀ j, j < w.lanes →
      lane ((x >>> 2) &&& maskBy w.bits 5) j = lane x j >>> 2 &&& maskBy 8 5 := by
    intro j hj
    rw [lane_ushiftRight_and (by decide) x _ (by rw [lane_maskBy_five hj]; exact hdrop),
      lane_maskBy_five hj]
  rw [nibbleSums, lane_add (lane_inside hi) fun j hj => ?_, hlow i hi, hshift i hi, nibbleSums]
  rw [hlow j (by omega), hshift j (by omega)]
  have := hmask (lane x j)
  have := hmask (lane x j >>> 2)
  omega

/-- The low nibble of a sum does not depend on high nibbles. -/
theorem byte_add_or_shiftLeft_and_mask (v p u : Byte) :
    (v + (p ||| u <<< 4)) &&& maskBy 8 17 = (v + p) &&& maskBy 8 17 := by
  have hmask : ∀ y : Byte, (y &&& maskBy 8 17).toNat = y.toNat % 16 := by decide
  have hdrop : ∀ y : Byte, y <<< 4 &&& maskBy 8 17 = 0 := by decide
  have hnibble : (p ||| u <<< 4).toNat % 16 = p.toNat % 16 := by
    rw [← hmask, ← hmask, or_and_of_and_eq_zero (hdrop u)]
  refine BitVec.eq_of_toNat_eq ?_
  rw [hmask, hmask, BitVec.toNat_add, BitVec.toNat_add]
  omega

/-- Step `s3` works lane by lane on lanes whose nibbles stay below 8 (R81). -/
theorem lane_byteSums {w : Width} (x : BitVec w.bits)
    (hx : ∀ j, j < w.lanes → (lane x j).toNat < 128 ∧ (lane x j <<< 4).toNat < 128)
    {i : Nat} (hi : i < w.lanes) : lane (byteSums x) i = byteSums (lane x i) := by
  have hhigh : ∀ v : Byte, (v >>> 4).toNat < 128 := by decide
  have hcarry : ∀ j, j < i → (lane x j).toNat + (lane (x >>> 4) j).toNat < 256 := by
    intro j hj
    have hshift : (lane (x >>> 4) j).toNat < 2 ^ 7 := by
      rw [lane_ushiftRight (by decide), BitVec.toNat_or]
      exact Nat.or_lt_two_pow (hhigh _) (hx (j + 1) (by omega)).2
    have := (hx j (by omega)).1
    omega
  rw [byteSums, lane_and, lane_add (lane_inside hi) hcarry, lane_maskBy_seventeen hi,
    lane_ushiftRight (by decide), byteSums]
  exact byte_add_or_shiftLeft_and_mask _ _ _

/-- Within a byte, the three steps of R79 count its bits. -/
theorem toNat_byte_steps : ∀ v : Byte,
    (byteSums (nibbleSums (pairSums v))).toNat = popcountRef v := by decide

/-- After the three steps, every lane holds the count of its eight bits (R81). -/
theorem toNat_lane_steps {w : Width} (x : BitVec w.bits) {i : Nat} (hi : i < w.lanes) :
    (lane (byteSums (nibbleSums (pairSums x))) i).toNat = popcountRef (lane x i) := by
  have hsmall : ∀ v : Byte, (nibbleSums (pairSums v)).toNat < 128 ∧
      (nibbleSums (pairSums v) <<< 4).toNat < 128 := by decide
  have hlane : ∀ j, j < w.lanes →
      lane (nibbleSums (pairSums x)) j = nibbleSums (pairSums (lane x j)) := by
    intro j hj
    rw [lane_nibbleSums _ hj, lane_pairSums _ hj]
  rw [lane_byteSums _ (fun j hj => hlane j hj ▸ hsmall _) hi, hlane i hi, toNat_byte_steps]

/-- The final shift of R79 reads the highest lane. -/
theorem toNat_ushiftRight_eq_lane {w : Width} (y : BitVec w.bits) :
    (y >>> (w.bits - 8)).toNat = (lane y (w.lanes - 1)).toNat := by
  have hy := y.isLt
  rw [toNat_lane, BitVec.toNat_ushiftRight, Nat.shiftRight_eq_div_pow]
  cases w <;> simp only [Width.bits, Width.lanes] at hy ⊢ <;> omega

/-- The popcount fallback equals the reference (R81). -/
theorem toNat_popcountFallback {w : Width} (x : BitVec w.bits) :
    (popcountFallback x).toNat = popcountRef x := by
  have hpos : w.lanes - 1 + 1 = w.lanes := by cases w <;> rfl
  have hsum : ∑ j ∈ Finset.range (w.lanes - 1 + 1),
      (lane (byteSums (nibbleSums (pairSums x))) j).toNat = popcountRef x := by
    rw [hpos, popcountRef_eq_sum_lanes]
    exact Finset.sum_congr rfl fun j hj => toNat_lane_steps x (Finset.mem_range.mp hj)
  have hsmall : popcountRef x < 256 :=
    (popcountRef_le x).trans_lt (by cases w <;> decide)
  have htop : w.lanes - 1 < w.lanes := by omega
  rw [popcountFallback, toNat_ushiftRight_eq_lane, rep_eq_repunit,
    lane_mul_repunit _ htop (lane_inside htop) (by omega), hsum]

/-! ## CLZ: smearing fills the bits below the highest set bit -/

/-- Bit `i` of `y` says whether `x` has a set bit among `i`, ..., `i + n - 1`. -/
def SmearedBy {W : Nat} (n : Nat) (x y : BitVec W) : Prop :=
  ∀ i, y.getLsbD i = true ↔ ∃ k, k < n ∧ x.getLsbD (i + k) = true

theorem smearedBy_one {W : Nat} (x : BitVec W) : SmearedBy 1 x x := by
  intro i
  simp

/-- One smearing step doubles the reach (R84). -/
theorem smearedBy_double {W n : Nat} {x y : BitVec W} (h : SmearedBy n x y) :
    SmearedBy (n + n) x (y ||| (y >>> n)) := by
  intro i
  rw [BitVec.getLsbD_or, BitVec.getLsbD_ushiftRight, Bool.or_eq_true, h i, h (n + i)]
  constructor
  · rintro (⟨k, hk, hx⟩ | ⟨k, hk, hx⟩)
    · exact ⟨k, by omega, hx⟩
    · exact ⟨n + k, by omega, by rwa [show i + (n + k) = n + i + k by omega]⟩
  · rintro ⟨k, hk, hx⟩
    by_cases hkn : k < n
    · exact .inl ⟨k, hkn, hx⟩
    · exact .inr ⟨k - n, by omega, by rwa [show n + i + (k - n) = i + k by omega]⟩

/-- The shifts of R82 reach over the whole word. -/
theorem smearedBy_smear (w : Width) (x : BitVec w.bits) : SmearedBy w.bits x (smear x) := by
  have h32 := smearedBy_double (smearedBy_double (smearedBy_double (smearedBy_double
    (smearedBy_double (smearedBy_one x)))))
  cases w with
  | w32 => exact h32
  | w64 => exact smearedBy_double h32

/-- The smeared word has the bits up to the highest set bit (R84). -/
theorem getLsbD_smear {w : Width} (x : BitVec w.bits) (h : x ≠ 0) (i : Nat) :
    (smear x).getLsbD i = decide (i < highestSet x h + 1) := by
  obtain ⟨hset, hin, habove⟩ := highestSet_spec x h
  rw [Bool.eq_iff_iff, smearedBy_smear w x i, decide_eq_true_eq]
  constructor
  · rintro ⟨k, -, hx⟩
    by_contra hi
    simp [habove (i + k) (by omega)] at hx
  · intro hi
    exact ⟨highestSet x h - i, by omega, by rwa [Nat.add_sub_cancel' (by omega)]⟩

/-- The clz fallback equals the reference (R84). -/
theorem toNat_clzFallback {w : Width} (x : BitVec w.bits) (h : x ≠ 0) :
    (clzFallback x).toNat = clzRef x h := by
  obtain ⟨-, hin, -⟩ := highestSet_spec x h
  rw [clzFallback, toNat_popcountFallback, popcountRef_not,
    popcountRef_of_getLsbD_eq_lt hin fun i _ => getLsbD_smear x h i, clzRef]
  omega

/-! ## CTZ: the lowest set bit alone, and the bits below it -/

/-- `x & neg(x)` is the lowest set bit alone (R87). -/
theorem isolateLowest_eq_twoPow {W : Nat} (x : BitVec W) (h : x ≠ 0) :
    isolateLowest x = BitVec.twoPow W (lowestSet x h) := by
  obtain ⟨hset, hin, hbelow⟩ := lowestSet_spec x h
  refine BitVec.eq_of_getLsbD_eq fun i hi => ?_
  rw [isolateLowest, BitVec.getLsbD_and, BitVec.getLsbD_neg, BitVec.getLsbD_twoPow,
    decide_eq_true hi, decide_eq_true hin, Bool.true_and, Bool.true_and]
  rcases lt_trichotomy i (lowestSet x h) with hlt | heq | hgt
  · rw [hbelow i hlt, Bool.false_and, decide_eq_false (by omega)]
  · have hnone : ¬ ∃ j, j < i ∧ x.getLsbD j = true := by
      rintro ⟨j, hj, hx⟩
      simp [hbelow j (by omega)] at hx
    rw [decide_eq_false hnone, decide_eq_true heq.symm, heq, hset]
    rfl
  · have hsome : ∃ j, j < i ∧ x.getLsbD j = true := ⟨lowestSet x h, hgt, hset⟩
    rw [decide_eq_true hsome, decide_eq_false (by omega)]
    cases x.getLsbD i <;> rfl

/-- One less than the isolated bit is the mask of the bits below it (R87). -/
theorem toNat_isolateLowest_sub_one {W : Nat} (x : BitVec W) (h : x ≠ 0) :
    (isolateLowest x - 1).toNat = 2 ^ lowestSet x h - 1 := by
  obtain ⟨-, hin, -⟩ := lowestSet_spec x h
  have hpow := BitVec.toNat_twoPow_of_lt hin
  have hone : (1 : BitVec W).toNat = 1 := Nat.mod_eq_of_lt (Nat.one_lt_two_pow (by omega))
  have hle : (1 : BitVec W) ≤ BitVec.twoPow W (lowestSet x h) := by
    rw [BitVec.le_def, hpow, hone]
    exact Nat.one_le_two_pow
  rw [isolateLowest_eq_twoPow x h, BitVec.toNat_sub_of_le hle, hpow, hone]

/-- The ctz fallback equals the reference (R87). -/
theorem toNat_ctzFallback {w : Width} (x : BitVec w.bits) (h : x ≠ 0) :
    (ctzFallback x).toNat = ctzRef x h := by
  obtain ⟨-, hin, -⟩ := lowestSet_spec x h
  have hbits : ∀ i, i < w.bits →
      (isolateLowest x - 1).getLsbD i = decide (i < lowestSet x h) := by
    intro i _
    rw [BitVec.getLsbD, toNat_isolateLowest_sub_one x h, Nat.testBit_two_pow_sub_one]
  rw [ctzFallback, toNat_popcountFallback, popcountRef_of_getLsbD_eq_lt hin.le hbits, ctzRef]

/-! ## The paths agree -/

/-- A word result is the count it holds. -/
theorem wordResult_eq_countResult {W : Nat} (v : BitVec W) :
    wordResult v = countResult v.toNat := by
  refine BitVec.eq_of_toNat_eq ?_
  simp [wordResult, countResult]

/-- `POPCNT` counts set bits on either path (R78). -/
theorem popcountOn_eq {w : Width} (p : Path) (x : BitVec w.bits) :
    popcountOn p x = countResult (popcountRef x) := by
  cases p with
  | fast => rfl
  | fallback => rw [popcountOn, wordResult_eq_countResult, toNat_popcountFallback]

/-- `CLZ` answers the reference on either path (R78). -/
theorem clzOn_eq {w : Width} (p : Path) (x : BitVec w.bits) (h : x ≠ 0) :
    clzOn p x h = countResult (clzRef x h) := by
  cases p with
  | fast => rfl
  | fallback => rw [clzOn, wordResult_eq_countResult, toNat_clzFallback x h]

/-- `CTZ` answers the reference on either path (R78). -/
theorem ctzOn_eq {w : Width} (p : Path) (x : BitVec w.bits) (h : x ≠ 0) :
    ctzOn p x h = countResult (ctzRef x h) := by
  cases p with
  | fast => rfl
  | fallback => rw [ctzOn, wordResult_eq_countResult, toNat_ctzFallback x h]

theorem clzChecked_of_ne_zero {w : Width} (p : Path) {x : BitVec w.bits} (h : x ≠ 0) :
    clzChecked p x = some (countResult (clzRef x h)) := by
  rw [clzChecked, dif_neg (by simpa [violatesNonzero] using h), clzOn_eq]

theorem ctzChecked_of_ne_zero {w : Width} (p : Path) {x : BitVec w.bits} (h : x ≠ 0) :
    ctzChecked p x = some (countResult (ctzRef x h)) := by
  rw [ctzChecked, dif_neg (by simpa [violatesNonzero] using h), ctzOn_eq]

/-! ## Every operation meets its contract -/

theorem violatesBounds_iff (a b : Byte) :
    violatesBounds a b = true ↔ a.toNat > 127 ∨ b.toNat > 128 ∨ a.toNat ≥ b.toNat := by
  simp [violatesBounds, or_assoc]

theorem operand_eq_zero_iff (w : Width) (x : Field64) :
    operand w x = 0 ↔ x.toNat % 2 ^ w.bits = 0 := by
  rw [← toNat_operand, BitVec.toNat_eq]
  simp

/-- The lanes of a word result: those of the word, then zeros (R45). -/
theorem lane_wordResult {w : Width} (v : BitVec w.bits) {i : Nat} (hi : i < 8) :
    lane (wordResult v) i = if i < w.lanes then lane v i else 0 := by
  refine BitVec.eq_of_getLsbD_eq fun b hb => ?_
  have hin : 8 * i + b < 64 := by omega
  have hbit : (lane (wordResult v) i).getLsbD b = v.getLsbD (8 * i + b) := by
    rw [getLsbD_lane, wordResult, BitVec.getLsbD_setWidth, decide_eq_true hb, decide_eq_true hin,
      Bool.true_and, Bool.true_and]
  rw [hbit]
  split
  · rw [getLsbD_lane, decide_eq_true hb, Bool.true_and]
  · have habove : w.bits ≤ 8 * i + b := by rw [bits_eq_eight_mul_lanes]; omega
    rw [BitVec.getLsbD_of_ge v _ habove]
    simp

/-- An operation has no result exactly where its precondition is violated (R96). -/
theorem resultOf_eq_none_iff (cfg : Cfg) (i : Instr) :
    resultOf cfg i = none ↔ Violated i := by
  cases i with
  | hasbtw w x a b => exact (hasbtwChecked_eq_none _ a b).trans (violatesBounds_iff a b)
  | clz w p x => exact (clzChecked_eq_none _ _).trans (operand_eq_zero_iff w x)
  | ctz w p x => exact (ctzChecked_eq_none _ _).trans (operand_eq_zero_iff w x)
  | bcast | haszero | haseq | haslt | hasgt | popcnt => simp [resultOf, Violated]

/-- A result of an operation is what its contract says (R12). -/
theorem contract_of_resultOf_eq_some {cfg : Cfg} {i : Instr} {r : Field64}
    (h : resultOf cfg i = some r) : Contract i r := by
  cases i with
  | bcast w c =>
    obtain rfl := Option.some.inj h
    intro i hi
    rw [lane_wordResult _ hi]
    exact ite_congr rfl (fun hlane => lane_bc hlane c) fun _ => rfl
  | haszero w x => rw [Contract, ← haszero_eq_anyLane, ← Option.some.inj h]
  | haseq w x a => rw [Contract, ← haseq_eq_anyLane, ← Option.some.inj h]
  | haslt w x a => rw [Contract, ← haslt_eq_anyLane, ← Option.some.inj h]
  | hasgt w x a => rw [Contract, ← hasgt_eq_anyLane, ← Option.some.inj h]
  | hasbtw w x a b =>
    have hok : ¬ violatesBounds a b = true := fun hbad => by
      simp [resultOf, (hasbtwChecked_eq_none _ a b).mpr hbad] at h
    have hbounds := (violatesBounds_iff a b).not.mp hok
    rw [resultOf, hasbtwChecked, if_neg hok] at h
    rw [Contract, ← hasbtw_eq_anyLane _ (by omega) (by omega), ← Option.some.inj h]
  | popcnt w p x => rw [Contract, ← popcountOn_eq (selectPath cfg p), ← Option.some.inj h]
  | clz w p x =>
    intro hne
    rw [resultOf, clzChecked_of_ne_zero _ hne] at h
    exact (Option.some.inj h).symm
  | ctz w p x =>
    intro hne
    rw [resultOf, ctzChecked_of_ne_zero _ hne] at h
    exact (Option.some.inj h).symm

/-- What an operation concludes with is admitted for its instruction (R14, R94). -/
theorem checked_resultOf_admitted (d : Draw) (cfg : Cfg) (i : Instr) :
    (checked d (resultOf cfg i)).ill = false ∧
      ((Violated i ∧ (checked d (resultOf cfg i)).pv = true) ∨
        (¬ Violated i ∧ (checked d (resultOf cfg i)).pv = false ∧
          Contract i (checked d (resultOf cfg i)).r)) := by
  rw [← resultOf_eq_none_iff cfg i]
  cases hres : resultOf cfg i with
  | none => simp
  | some r => simpa using contract_of_resultOf_eq_some hres

/-- In every state the response port shows an answer the spec admits for the command port (R25). -/
theorem admitted_rsp (s : State) : Admitted s.cmd s.rsp := by
  unfold Admitted
  cases hdec : decode s.cmd with
  | error e => exact State.rsp_of_error hdec
  | ok i =>
    rw [State.rsp_of_ok hdec, responseOf_eq_checked]
    exact checked_resultOf_admitted (s.draw i) s.cfg i

/-- A step concludes with what the response port shows (R20, R111). -/
theorem step_eq_conclude_rsp (s : State) : step s = conclude s s.rsp := by
  unfold step
  cases hdec : decode s.cmd with
  | error e => rw [State.rsp_of_error hdec]
  | ok i => exact (exec_eq_conclude i s).trans (by rw [State.rsp_of_ok hdec])

/-- Settles O17: a step reads the response port, and the port shows an admitted answer. -/
theorem stepMeetsContracts : Obligations.StepMeetsContracts := by
  intro s
  exact ⟨_, step_eq_conclude_rsp s, admitted_rsp s⟩

/-! ## Operands, word constants and signed words -/

/-- At `W = 32` the lanes of the operand are the low lanes of the field (R28). -/
theorem lane_operand_w32 (x : Field64) {i : Nat} (hi : i < 4) :
    lane (operand .w32 x) i = lane x i := by
  refine BitVec.eq_of_getLsbD_eq fun b hb => ?_
  have hin : 8 * i + b < Width.w32.bits := by rw [Width.bits]; omega
  rw [getLsbD_lane, getLsbD_lane, getLsbD_operand, decide_eq_true hin, Bool.true_and]

/-- Settles O20. -/
theorem operandAndLaneNumbering : Obligations.OperandAndLaneNumbering :=
  ⟨toNat_operand, fun _ x i _ => toNat_lane x i, fun x _ hi => lane_operand_w32 x hi,
    fun _ x P => anyLane_eq_true_iff x P⟩

/-- Settles O22: closed values at the two widths. -/
theorem wordConstants : Obligations.WordConstants := by
  refine ⟨fun w => ?_, by decide, by decide, by decide, by decide, by decide, by decide,
    by decide, by decide⟩
  cases w <;> decide

/-- Presenting a signed word and taking its operand loses no bit (R13). -/
theorem operand_signedWord (w : Width) (v : Int) :
    operand w (signedWord w v) = BitVec.ofInt w.bits v := by
  have hle : w.bits ≤ 64 := by cases w <;> decide
  rw [operand, signedWord, BitVec.setWidth_setWidth_of_le _ hle, BitVec.setWidth_eq]

/-- Settles O51. -/
theorem signedWordIsBitPattern : Obligations.SignedWordIsBitPattern := by
  intro w v hlo hhi
  have hpos : 0 < w.bits := by cases w <;> decide
  refine ⟨?_, ?_⟩
  · rw [operand_signedWord, BitVec.toInt_ofInt_eq_self hpos hlo hhi]
  · rw [signedWord, BitVec.toNat_setWidth]
    exact (Nat.mod_le _ _).trans_lt (BitVec.ofInt w.bits v).isLt

end Sys2Proof.Machine

/-! SUPPORT. What one transaction leaves behind, the responses the spec admits for one command, and the
statements of 10_state.md they settle. -/

namespace Sys2Proof.Machine

/-! ## One transaction -/

/-- The state after a transaction: the host has read what the port showed (R20, R111). -/
def State.answered (s : State) : State :=
  { s.reading s.rsp with draws := s.draws + s.rsp.pv.toNat }

@[simp] theorem State.answered_cfg (s : State) : s.answered.cfg = s.cfg := rfl
@[simp] theorem State.answered_cmd (s : State) : s.answered.cmd = s.cmd := rfl
@[simp] theorem State.answered_read (s : State) : s.answered.read = s.rsp := rfl
@[simp] theorem State.answered_draws (s : State) :
    s.answered.draws = s.draws + s.rsp.pv.toNat := rfl

/-- Every step completes, in one way (R94). -/
theorem step_eq_next_answered (s : State) : step s = .next s.answered :=
  step_eq_conclude_rsp s

theorem step_eq_next_iff {s t : State} : step s = .next t ↔ t = s.answered := by
  rw [step_eq_conclude_rsp, conclude_next]
  rfl

/-- Settles O6. -/
theorem stepRunsDecodedInstruction : Obligations.StepRunsDecodedInstruction := by
  intro s i hdec
  rw [step_eq_conclude_rsp, State.rsp_of_ok hdec, exec_eq_conclude]

/-- Settles O14: the frame is that of `State.answered`. -/
theorem transactionFrame : Obligations.TransactionFrame := by
  intro s t hstep
  obtain rfl := step_eq_next_iff.mp hstep
  exact ⟨s.answered_cfg, s.answered_cmd, s.answered_draws⟩

/-! ## The response port -/

/-- Nothing but what the host read distinguishes states with the same configuration, command and draw
count, and the port does not depend on that (R25). -/
theorem rsp_eq_of_fields_eq {s s' : State} (hcfg : s.cfg = s'.cfg) (hcmd : s.cmd = s'.cmd)
    (hdraws : s.draws = s'.draws) : s.rsp = s'.rsp := by
  have hread : s = s'.reading s.read := by
    cases s
    cases s'
    simp_all [State.reading]
  rw [hread, State.reading_rsp]

/-- Settles O52. -/
theorem responsePortFollowsCommand : Obligations.ResponsePortFollowsCommand :=
  ⟨fun s c => admitted_rsp (s.present c), fun _ _ => rsp_eq_of_fields_eq, step_eq_next_answered⟩

/-! ## A command fixes its response -/

/-- Inside the precondition, the contract of an operation fixes `R` (R12, R77). -/
theorem contract_unique {i : Instr} {r r' : Field64} (hok : ¬ Violated i) (hr : Contract i r)
    (hr' : Contract i r') : r = r' := by
  cases i with
  | bcast w c => exact eq_of_lane_eq (n := 8) le_rfl fun i hi => (hr i hi).trans (hr' i hi).symm
  | clz w p x | ctz w p x =>
    have hne : operand w x ≠ 0 := (operand_eq_zero_iff w x).not.mpr hok
    exact (hr hne).trans (hr' hne).symm
  | haszero | haseq | haslt | hasgt | hasbtw | popcnt => exact hr.trans hr'.symm

/-- Two responses admitted for one command are the same as far as the spec fixes them (R23). -/
theorem sameResponse_of_admitted {c : Command} {p q : Response} (hp : Admitted c p)
    (hq : Admitted c q) : SameResponse p q := by
  unfold Admitted at hp hq
  cases hdec : decode c with
  | error e =>
    rw [hdec] at hp hq
    obtain rfl : p = q := Eq.trans hp (Eq.symm hq)
    exact ⟨rfl, rfl, fun _ => rfl⟩
  | ok i =>
    rw [hdec] at hp hq
    obtain ⟨hpIll, hpCase⟩ := hp
    obtain ⟨hqIll, hqCase⟩ := hq
    have hill : p.ill = q.ill := hpIll.trans hqIll.symm
    rcases hpCase with ⟨hbad, hpPv⟩ | ⟨hok, hpPv, hpR⟩
    · have hqPv : q.pv = true := (hqCase.resolve_right fun h => h.1 hbad).2
      exact ⟨hpPv.trans hqPv.symm, hill, fun h => by simp [hpPv] at h⟩
    · obtain ⟨-, hqPv, hqR⟩ := hqCase.resolve_left fun h => hok h.1
      exact ⟨hpPv.trans hqPv.symm, hill, fun _ => contract_unique hok hpR hqR⟩

/-- Settles O15: both steps read an admitted answer to the same command. -/
theorem responseDependsOnCommandOnly : Obligations.ResponseDependsOnCommandOnly := by
  intro s s' hcmd
  have hs' : Admitted s.cmd s'.rsp := hcmd ▸ admitted_rsp s'
  exact ⟨_, _, step_eq_next_answered s, step_eq_next_answered s',
    sameResponse_of_admitted (admitted_rsp s) hs'⟩

/-! ## Sequences of transactions and runs of steps -/

/-- After a transaction the ports agree, whatever the host had read before it. -/
theorem portsAgree_answered (s : State) : PortsAgree s.answered :=
  ⟨admitted_rsp s.answered, admitted_rsp s⟩

/-- The first command is answered, then the others from the state it leaves. -/
theorem transactions_cons {s u : State} {c : Command} {cs : List Command} {rs : List Response}
    (h : transactions (s.present c).answered cs = .next (u, rs)) :
    transactions s (c :: cs) = .next (u, (s.present c).rsp :: rs) := by
  simp [transactions, transact, step_eq_next_answered, h]

/-- Every sequence of commands completes with an admitted response to each, and the ports agree after
it (R20, R32). -/
theorem transactions_admitted {s : State} (hs : PortsAgree s) (cs : List Command) :
    ∃ u rs, transactions s cs = .next (u, rs) ∧ PortsAgree u ∧ List.Forall₂ Admitted cs rs := by
  induction cs generalizing s with
  | nil => exact ⟨s, [], rfl, hs, .nil⟩
  | cons c cs ih =>
    obtain ⟨u, rs, hrun, hu, hrs⟩ := ih (portsAgree_answered (s.present c))
    exact ⟨u, _, transactions_cons hrun, hu, .cons (admitted_rsp (s.present c)) hrs⟩

/-- A run whose first step answers goes on from the state that step leaves. -/
theorem run_succ_of_step_eq_next {M : Host.Core} {s t : M.State} (h : M.step s = .next t)
    (k : Nat) : M.run (k + 1) s = M.run k t := by
  rw [Host.Core.run, h]

/-- Every run of steps completes in a state whose ports agree. -/
theorem run_portsAgree {s : State} (hs : PortsAgree s) (k : Nat) :
    ∃ u, Sys2Proof.core.run k s = .next u ∧ PortsAgree u := by
  induction k generalizing s with
  | zero => exact ⟨s, rfl, hs⟩
  | succ k ih =>
    obtain ⟨u, hrun, hu⟩ := ih (portsAgree_answered s)
    exact ⟨u, (run_succ_of_step_eq_next (step_eq_next_answered s) k).trans hrun, hu⟩

/-- Settles O18, by induction on the commands and on the number of steps. -/
theorem transactionsKeepPortsAgreeing : Obligations.TransactionsKeepPortsAgreeing :=
  ⟨fun _ cs hs => transactions_admitted hs cs, fun _ k hs => run_portsAgree hs k⟩

/-! ## Reset -/

/-- At reset the command port holds `bcast.32` of byte 0, which the port answers with `R = 0`. -/
theorem rsp_reset : State.reset.rsp = ⟨0, false, false⟩ := by
  have hdec : decode State.reset.cmd = .ok (.bcast .w32 0) := by decide
  have hzero : bc 32 0 = 0 := by decide
  rw [State.rsp_of_ok hdec, responseOf, respBcast, Width.bits, hzero]
  rfl

/-- What the host has read at reset is what the port shows, so a first transaction changes nothing. -/
theorem answered_reset : State.reset.answered = State.reset := by
  rw [State.answered, rsp_reset]
  rfl

/-- Settles O19. -/
theorem resetPortsAgree : Obligations.ResetPortsAgree := by
  have hagree := portsAgree_answered State.reset
  have hstep := step_eq_next_answered State.reset
  rw [answered_reset] at hagree hstep
  exact ⟨hagree, hstep⟩

/-! ## The response word -/

theorem toNat_append_eq_mul_add {m n : Nat} (x : BitVec m) (y : BitVec n) :
    (x ++ y).toNat = x.toNat * 2 ^ n + y.toNat := by
  rw [BitVec.toNat_append, ← Nat.shiftLeft_add_eq_or_of_lt y.isLt, Nat.shiftLeft_eq]

/-- `RSP = {ILL, PV, R}` as a number (R21). -/
theorem toNat_word (p : Response) :
    p.word.toNat = p.r.toNat + 2 ^ 64 * p.pv.toNat + 2 ^ 65 * p.ill.toNat := by
  have hword : p.word.toNat = (BitVec.ofBool p.ill ++ BitVec.ofBool p.pv ++ p.r).toNat := rfl
  rw [hword, toNat_append_eq_mul_add, toNat_append_eq_mul_add, BitVec.toNat_ofBool,
    BitVec.toNat_ofBool]
  omega

/-- Bit `i` of the response word, by the field it lies in (R21). -/
theorem getLsbD_word (p : Response) (i : Nat) :
    p.word.getLsbD i =
      if i < 64 then p.r.getLsbD i else if i = 64 then p.pv else (decide (i = 65) && p.ill) := by
  have hword : p.word.getLsbD i =
      (BitVec.ofBool p.ill ++ BitVec.ofBool p.pv ++ p.r).getLsbD i := rfl
  rw [hword, BitVec.getLsbD_append, BitVec.getLsbD_append, BitVec.getLsbD_ofBool,
    BitVec.getLsbD_ofBool]
  rcases lt_trichotomy i 64 with hr | rfl | hhigh
  · rw [if_pos hr, if_pos hr]
  · simp
  · have hill : (i - 64 - 1 = 0) = (i = 65) := propext (by omega)
    have hpv : ¬ i - 64 < 1 := by omega
    simp [hhigh.not_gt, hhigh.ne', hpv, hill]

theorem ofWord_word (p : Response) : Response.ofWord p.word = p := by
  have hr : p.word.extractLsb' 0 64 = p.r :=
    BitVec.eq_of_getLsbD_eq fun i hi => by simp [getLsbD_word, hi]
  rw [Response.ofWord, hr, getLsbD_word, getLsbD_word]
  simp

theorem word_ofWord (v : BitVec 66) : (Response.ofWord v).word = v := by
  refine BitVec.eq_of_getLsbD_eq fun i hi => ?_
  rw [getLsbD_word, Response.ofWord]
  rcases lt_trichotomy i 64 with hr | rfl | hhigh
  · simp [hr]
  · rfl
  · obtain rfl : i = 65 := by omega
    simp

/-- Settles O12. -/
theorem responseWordFields : Obligations.ResponseWordFields :=
  ⟨toNat_word, ofWord_word, word_ofWord⟩

end Sys2Proof.Machine

/-! SUPPORT. A word seen as the list of its lanes, what two sequences of transactions have in common,
and the statements of 20_memory.md they settle. -/

namespace Sys2Proof.Machine

/-! ## Transactions are independent -/

/-- Every sequence of commands completes with an admitted response to each, from any state: after a
first transaction the ports agree. -/
theorem transactions_forall₂_admitted (s : State) (cs : List Command) :
    ∃ u rs, transactions s cs = .next (u, rs) ∧ List.Forall₂ Admitted cs rs := by
  cases cs with
  | nil => exact ⟨s, [], rfl, .nil⟩
  | cons c cs =>
    obtain ⟨u, rs, hrun, -, hrs⟩ := transactions_admitted (portsAgree_answered (s.present c)) cs
    exact ⟨u, _, transactions_cons hrun, .cons (admitted_rsp (s.present c)) hrs⟩

/-- What stands at a place of the first list is related to what stands there in the second. -/
theorem exists_getElem?_of_forall₂ {α β : Type} {R : α → β → Prop} {l : List α} {l' : List β}
    (h : List.Forall₂ R l l') {i : Nat} {a : α} (ha : l[i]? = some a) :
    ∃ b, l'[i]? = some b ∧ R a b := by
  obtain ⟨hi, rfl⟩ := List.getElem?_eq_some_iff.mp ha
  have hi' : i < l'.length := h.length_eq ▸ hi
  exact ⟨l'[i], List.getElem?_eq_getElem hi', h.get hi hi'⟩

/-- Settles O16: wherever a command stands, its response is one the spec admits for it, and those are
the same as far as the spec fixes them. -/
theorem transactionsAreIndependent : Obligations.TransactionsAreIndependent := by
  intro s s' cs cs'
  obtain ⟨u, rs, hrun, hrs⟩ := transactions_forall₂_admitted s cs
  obtain ⟨u', rs', hrun', hrs'⟩ := transactions_forall₂_admitted s' cs'
  refine ⟨u, u', rs, rs', hrun, hrun', fun i j c hi hj => ?_⟩
  obtain ⟨p, hp, hpc⟩ := exists_getElem?_of_forall₂ hrs hi
  obtain ⟨q, hq, hqc⟩ := exists_getElem?_of_forall₂ hrs' hj
  exact ⟨p, q, hp, hq, sameResponse_of_admitted hpc hqc⟩

/-! ## The lanes of a word as a list -/

/-- The lanes of a word, lane 0 first (R27). -/
def lanesOf {w : Width} (x : BitVec w.bits) : List Byte :=
  (List.range w.lanes).map (lane x)

/-- `anyLane` asks of the list of lanes whether some member qualifies (R10). -/
theorem anyLane_eq_any_lanesOf {w : Width} (x : BitVec w.bits) (P : Byte → Bool) :
    anyLane x P = (lanesOf x).any P := by
  rw [Bool.eq_iff_iff, anyLane_eq_true_iff]
  simp [lanesOf]

/-- The bits of a word are counted lane by lane (R81). -/
theorem popcountRef_eq_sum_lanesOf {w : Width} (x : BitVec w.bits) :
    popcountRef x = ((lanesOf x).map popcountRef).sum := by
  rw [popcountRef_eq_sum_lanes, lanesOf, List.map_map]
  rfl

/-- No order of the lanes is observable by `anyLane` (R27). -/
theorem anyLane_eq_of_lanesOf_perm {w : Width} {x y : BitVec w.bits}
    (h : (lanesOf x).Perm (lanesOf y)) (P : Byte → Bool) : anyLane x P = anyLane y P := by
  rw [anyLane_eq_any_lanesOf, anyLane_eq_any_lanesOf, h.any_eq]

/-- No order of the lanes is observable by the popcount (R27). -/
theorem popcountRef_eq_of_lanesOf_perm {w : Width} {x y : BitVec w.bits}
    (h : (lanesOf x).Perm (lanesOf y)) : popcountRef x = popcountRef y := by
  rw [popcountRef_eq_sum_lanesOf, popcountRef_eq_sum_lanesOf, (h.map popcountRef).sum_eq]

/-! ## Operations with a common contract -/

/-- Inside its precondition an operation reads a result that meets its contract, and changes nothing
else. -/
theorem exec_of_not_violated (s : State) {i : Instr} (hok : ¬ Violated i) :
    ∃ r, Contract i r ∧ exec i s = .next (s.reading ⟨r, false, false⟩) := by
  have hsome : resultOf s.cfg i ≠ none := (resultOf_eq_none_iff s.cfg i).not.mpr hok
  obtain ⟨r, hr⟩ := Option.ne_none_iff_exists'.mp hsome
  exact ⟨r, contract_of_resultOf_eq_some hr, exec_next.mpr (.inl ⟨r, hr, rfl⟩)⟩

/-- Inside their preconditions, two operations of which one's contract implies the other's lead to
the same next state. -/
theorem exec_eq_of_contract_imp (s : State) {i j : Instr} (hi : ¬ Violated i) (hj : ¬ Violated j)
    (h : ∀ r, Contract i r → Contract j r) : exec i s = exec j s := by
  obtain ⟨r, hr, hexec⟩ := exec_of_not_violated s hi
  obtain ⟨r', hr', hexec'⟩ := exec_of_not_violated s hj
  rw [hexec, hexec', contract_unique hj (h r hr) hr']

/-- Settles O21: the contracts of the five predicates and of `POPCNT` speak of `anyLane` and of
`popcountRef` only. -/
theorem laneOrderNotObservable : Obligations.LaneOrderNotObservable := by
  intro w x y s hperm
  have hany : ∀ P, boolResult (anyLane (operand w x) P) = boolResult (anyLane (operand w y) P) :=
    fun P => congrArg boolResult (anyLane_eq_of_lanesOf_perm hperm P)
  have hcount : countResult (popcountRef (operand w x)) = countResult (popcountRef (operand w y)) :=
    congrArg countResult (popcountRef_eq_of_lanesOf_perm hperm)
  refine ⟨?haszero, fun a => ⟨?haseq, ?haslt, ?hasgt⟩, fun a b ha hb hab => ?hasbtw,
    fun p q => ?popcnt⟩
  case hasbtw =>
    have hok : ¬ (a.toNat > 127 ∨ b.toNat > 128 ∨ a.toNat ≥ b.toNat) := by omega
    exact exec_eq_of_contract_imp s hok hok fun r hr => hr.trans (hany _)
  case popcnt => exact exec_eq_of_contract_imp s not_false not_false fun r hr => hr.trans hcount
  case haszero | haseq | haslt | hasgt =>
    exact exec_eq_of_contract_imp s not_false not_false fun r hr => hr.trans (hany _)

end Sys2Proof.Machine

/-! SUPPORT. The fields of a command by arithmetic, what the decoder and the assembler accept, and the
statements of 30_encoding.md they settle. -/

namespace Sys2Proof.Machine

/-! ## The fields of a command -/

/-- `CMD = {x, header}` as a number (R36, R50). -/
theorem toNat_command (f : Fields) :
    f.command.toNat = f.op.toNat + 16 * f.w.toNat + 32 * f.p.toNat + 64 * f.rsv0.toNat
      + 256 * f.a.toNat + 65536 * f.b.toNat + 2 ^ 24 * f.rsv1.toNat + 2 ^ 32 * f.x.toNat := by
  have hcommand : f.command.toNat =
      (f.x ++ f.rsv1 ++ f.b ++ f.a ++ f.rsv0 ++ f.p ++ f.w ++ f.op).toNat := rfl
  rw [hcommand]
  simp only [toNat_append_eq_mul_add]
  omega

/-- A field of `n` bits from bit `k` up is a quotient and a remainder (R36). -/
theorem toNat_extractLsb' (c : Command) (k n : Nat) :
    (c.extractLsb' k n).toNat = c.toNat / 2 ^ k % 2 ^ n := by
  rw [BitVec.extractLsb'_toNat, Nat.shiftRight_eq_div_pow]

/-- A command is read back as the fields it was written from (R36). -/
@[simp] theorem ofCommand_command (f : Fields) : Fields.ofCommand f.command = f := by
  have hsum := toNat_command f
  obtain ⟨op, w, p, rsv0, a, b, rsv1, x⟩ := f
  simp only [Fields.ofCommand, Fields.mk.injEq, BitVec.toNat_eq, toNat_extractLsb', hsum]
  omega

@[simp] theorem ofCommand_encode (i : Instr) : Fields.ofCommand (encode i) = i.fields :=
  ofCommand_command i.fields

theorem toNat_ofCommand_op (c : Command) : (Fields.ofCommand c).op.toNat = opField c := by
  rw [Fields.ofCommand, toNat_extractLsb', Nat.pow_zero, Nat.div_one]
  rfl

/-- No bit of a command lies above field `x` (R35). -/
theorem toNat_ofCommand_x (c : Command) : (Fields.ofCommand c).x.toNat = c.toNat / 2 ^ 32 := by
  have hlt : c.toNat / 2 ^ 32 < 2 ^ 64 := Nat.div_lt_of_lt_mul c.isLt
  rw [Fields.ofCommand, toNat_extractLsb', Nat.mod_eq_of_lt hlt]

/-- The canonical command of an instruction has both reserved fields zero (R43). -/
theorem rsv_fields (i : Instr) : i.fields.rsv0 = 0 ∧ i.fields.rsv1 = 0 := by
  cases i <;> exact ⟨rfl, rfl⟩

/-- Settles O1. -/
theorem commandFieldsByArithmetic : Obligations.CommandFieldsByArithmetic := by
  refine ⟨fun c => ⟨toNat_ofCommand_op c, toNat_extractLsb' c 4 1, toNat_extractLsb' c 5 1,
    toNat_extractLsb' c 6 2, toNat_extractLsb' c 8 8, toNat_extractLsb' c 16 8,
    toNat_extractLsb' c 24 8, toNat_ofCommand_x c⟩, fun i => ?_, by decide⟩
  obtain ⟨hrsv0, hrsv1⟩ := rsv_fields i
  rw [encode, toNat_command, hrsv0, hrsv1]
  rfl

/-! ## The selectors of a command, and the decoder's -/

/-- Field `w` by the decoder and by arithmetic (R37). -/
theorem ofBit_w (c : Command) : Width.ofBit (Fields.ofCommand c).w = widthField c := by
  have hw : (Fields.ofCommand c).w.toNat = c.toNat / 2 ^ 4 % 2 := toNat_extractLsb' c 4 1
  rw [widthField, ← hw]
  generalize (Fields.ofCommand c).w = v
  revert v
  decide

/-- Field `p` by the decoder and by arithmetic (R40). -/
theorem ofBit_p (c : Command) : Path.ofBit (Fields.ofCommand c).p = pathField c := by
  have hp : (Fields.ofCommand c).p.toNat = c.toNat / 2 ^ 5 % 2 := toNat_extractLsb' c 5 1
  rw [pathField, ← hp]
  generalize (Fields.ofCommand c).p = v
  revert v
  decide

@[simp] theorem ofBit_toBit_width (w : Width) : Width.ofBit w.toBit = w := by
  cases w <;> rfl

@[simp] theorem ofBit_toBit_path (p : Path) : Path.ofBit p.toBit = p := by
  cases p <;> rfl

theorem toNat_trim (w : Width) (x : Field64) : (w.trim x).toNat = x.toNat % 2 ^ w.bits := by
  cases w with
  | w32 =>
    have hlt : x.toNat % 2 ^ 32 < 2 ^ 64 := by omega
    rw [Width.trim, BitVec.toNat_setWidth, BitVec.toNat_setWidth, Nat.mod_eq_of_lt hlt]
    rfl
  | w64 => exact (Nat.mod_eq_of_lt x.isLt).symm

theorem fits_iff (w : Width) (x : Field64) : w.fits x = true ↔ x.toNat < 2 ^ w.bits := by
  cases w with
  | w32 => exact decide_eq_true_iff
  | w64 => exact iff_of_true rfl x.isLt

theorem fits_trim (w : Width) (x : Field64) : w.fits (w.trim x) = true := by
  rw [fits_iff, toNat_trim]
  exact Nat.mod_lt _ (Nat.two_pow_pos _)

/-- Trimming leaves a word that fits as it is (R38). -/
theorem trim_of_fits {w : Width} {x : Field64} (h : w.fits x = true) : w.trim x = x := by
  refine BitVec.eq_of_toNat_eq ?_
  rw [toNat_trim, Nat.mod_eq_of_lt ((fits_iff w x).mp h)]

/-- The decoder's word operand by arithmetic (R38). -/
theorem toNat_trim_ofCommand_x (c : Command) :
    ((widthField c).trim (Fields.ofCommand c).x).toNat = operandField c := by
  rw [toNat_trim, toNat_ofCommand_x, operandField]

/-! ## The decoder -/

/-- When the decoder accepts, by the fields of the command (R42, R46). -/
theorem decode_eq_ok_iff (c : Command) (i : Instr) :
    decode c = .ok i ↔ (Fields.ofCommand c).rsv0 = 0 ∧ (Fields.ofCommand c).rsv1 = 0 ∧
      (Fields.ofCommand c).instr = some i := by
  rw [decode]
  by_cases hrsv : (Fields.ofCommand c).rsv0 = 0 ∧ (Fields.ofCommand c).rsv1 = 0
  · obtain ⟨hrsv0, hrsv1⟩ := hrsv
    cases (Fields.ofCommand c).instr <;> simp [hrsv0, hrsv1]
  · rw [if_pos (not_and_or.mp hrsv)]
    exact iff_of_false nofun fun ⟨hrsv0, hrsv1, _⟩ => hrsv ⟨hrsv0, hrsv1⟩

/-- A command spells an instruction: its opcode and the fields the operation reads are the
instruction's (R41, R43). -/
def Spells (c : Command) : Instr → Prop
  | .bcast w v => opField c = 0 ∧ widthField c = w ∧ aField c = v.toNat
  | .haszero w x => opField c = 1 ∧ widthField c = w ∧ operandField c = x.toNat
  | .haseq w x a =>
    opField c = 2 ∧ widthField c = w ∧ operandField c = x.toNat ∧ aField c = a.toNat
  | .haslt w x a =>
    opField c = 3 ∧ widthField c = w ∧ operandField c = x.toNat ∧ aField c = a.toNat
  | .hasgt w x a =>
    opField c = 4 ∧ widthField c = w ∧ operandField c = x.toNat ∧ aField c = a.toNat
  | .hasbtw w x a b =>
    opField c = 5 ∧ widthField c = w ∧ operandField c = x.toNat ∧ aField c = a.toNat ∧
      bField c = b.toNat
  | .popcnt w p x =>
    opField c = 6 ∧ widthField c = w ∧ operandField c = x.toNat ∧ pathField c = p
  | .clz w p x =>
    opField c = 7 ∧ widthField c = w ∧ operandField c = x.toNat ∧ pathField c = p
  | .ctz w p x =>
    opField c = 8 ∧ widthField c = w ∧ operandField c = x.toNat ∧ pathField c = p

/-- The operation the decoder selects is the one the command spells (R41). -/
theorem instr_eq_some_iff (c : Command) (i : Instr) :
    (Fields.ofCommand c).instr = some i ↔ Spells c i := by
  have ha : (Fields.ofCommand c).a.toNat = aField c := toNat_extractLsb' c 8 8
  have hb : (Fields.ofCommand c).b.toNat = bField c := toNat_extractLsb' c 16 8
  have hx := toNat_trim_ofCommand_x c
  simp only [Fields.instr, ofBit_w, ofBit_p, toNat_ofCommand_op]
  generalize (Fields.ofCommand c).a = a at ha ⊢
  generalize (Fields.ofCommand c).b = b at hb ⊢
  generalize (widthField c).trim (Fields.ofCommand c).x = x at hx ⊢
  constructor
  · intro h
    split at h
    all_goals cases h
    all_goals simp [Spells, *]
  · intro h
    cases i
    all_goals
      simp only [Spells, ← ha, ← hb, ← hx, BitVec.toNat_inj] at h
      simp [h]

/-- No operation has an opcode above 8 (R41). -/
theorem opField_le_of_spells {c : Command} {i : Instr} (h : Spells c i) : opField c ≤ 8 := by
  cases i <;> simp [h.1]

/-- Legality by the decoder's fields (R42). -/
theorem legalCommand_iff (c : Command) :
    LegalCommand c ↔
      opField c ≤ 8 ∧ (Fields.ofCommand c).rsv0 = 0 ∧ (Fields.ofCommand c).rsv1 = 0 := by
  have hrsv0 : (Fields.ofCommand c).rsv0.toNat = c.toNat / 2 ^ 6 % 4 := toNat_extractLsb' c 6 2
  have hrsv1 : (Fields.ofCommand c).rsv1.toNat = c.toNat / 2 ^ 24 % 256 := toNat_extractLsb' c 24 8
  rw [BitVec.toNat_eq, BitVec.toNat_eq, hrsv0, hrsv1]
  rfl

/-- What the decoder accepts, by arithmetic: a legal command, as the instruction it spells (R41 to
R43). -/
theorem decode_eq_ok_iff_spells (c : Command) (i : Instr) :
    decode c = .ok i ↔ LegalCommand c ∧ Spells c i := by
  rw [decode_eq_ok_iff, instr_eq_some_iff, legalCommand_iff]
  constructor
  · rintro ⟨hrsv0, hrsv1, hi⟩
    exact ⟨⟨opField_le_of_spells hi, hrsv0, hrsv1⟩, hi⟩
  · rintro ⟨⟨-, hrsv0, hrsv1⟩, hi⟩
    exact ⟨hrsv0, hrsv1, hi⟩

/-- Every opcode up to 8 selects an operation (R41). -/
theorem exists_spells {c : Command} (h : opField c ≤ 8) : ∃ i, Spells c i := by
  have hsome : (Fields.ofCommand c).instr.isSome := by
    rw [Fields.instr, toNat_ofCommand_op]
    interval_cases opField c <;> rfl
  obtain ⟨i, hi⟩ := Option.isSome_iff_exists.mp hsome
  exact ⟨i, (instr_eq_some_iff c i).mp hi⟩

/-- The canonical fields of a well-formed instruction select it (R43). -/
theorem fields_instr {i : Instr} (h : i.wellFormed = true) : i.fields.instr = some i := by
  cases i
  all_goals
    rw [Instr.wellFormed] at h
    simp [Fields.instr, Instr.fields, Instr.opcode, trim_of_fits, h]

/-- Settles O2: the decoder reads back the fields the encoder wrote, and they select the
instruction. -/
theorem decodeEncodeRoundTrip : Obligations.DecodeEncodeRoundTrip := by
  intro i hwf
  obtain ⟨hrsv0, hrsv1⟩ := rsv_fields i
  rw [decode_eq_ok_iff, ofCommand_encode]
  exact ⟨hrsv0, hrsv1, fields_instr hwf⟩

/-- The decoder clears what lies above `W`, so its word operands fit (R38). -/
theorem wellFormed_of_instr_eq_some {f : Fields} {i : Instr} (h : f.instr = some i) :
    i.wellFormed = true := by
  unfold Fields.instr at h
  split at h
  all_goals cases h
  all_goals simp [Instr.wellFormed, fits_trim]

/-- Two commands, one of which spells an instruction, agree on what its operation reads exactly when
the other spells it too (R43). -/
theorem sameReadFields_iff_spells {c d : Command} {i : Instr} (h : Spells c i) :
    SameReadFields c d ↔ Spells d i := by
  cases i
  all_goals
    simp only [Spells] at h
    simp [SameReadFields, Spells, h, eq_comm]

/-- Settles O3. -/
theorem decodedInstructionIsCanonical : Obligations.DecodedInstructionIsCanonical := by
  intro c i hdec
  have hwf : i.wellFormed = true := by
    obtain ⟨-, -, hinstr⟩ := (decode_eq_ok_iff c i).mp hdec
    exact wellFormed_of_instr_eq_some hinstr
  have hcanon := decodeEncodeRoundTrip i hwf
  obtain ⟨-, hspells⟩ := (decode_eq_ok_iff_spells c i).mp hdec
  obtain ⟨-, hspells'⟩ := (decode_eq_ok_iff_spells (encode i) i).mp hcanon
  have hsame := (sameReadFields_iff_spells hspells').mpr hspells
  exact ⟨hwf, hcanon, hsame.1, hsame⟩

/-- Settles O4: closed values. -/
theorem publishedCommandsDecode : Obligations.PublishedCommandsDecode := by
  unfold Obligations.PublishedCommandsDecode
  decide

/-! ## A step by the fields of its command -/

/-- A step on a command that is legal and spells an instruction runs it (R46). -/
theorem step_of_spells {s : State} {i : Instr} (hlegal : LegalCommand s.cmd)
    (h : Spells s.cmd i) : step s = exec i s :=
  stepRunsDecodedInstruction s i ((decode_eq_ok_iff_spells s.cmd i).mpr ⟨hlegal, h⟩)

/-- Settles O5: each clause names the instruction the command spells. -/
theorem decodeProcedureSelectsOperation : Obligations.DecodeProcedureSelectsOperation := by
  intro s x a b hlegal hx ha hb
  refine ⟨?bcast, ?haszero, ?haseq, ?haslt, ?hasgt, ?hasbtw, ?popcnt, ?clz, ?ctz⟩
  all_goals
    intro hop
    refine step_of_spells hlegal ?_
    simp [Spells, hop, hx, ha, hb]

/-- The decoder accepts exactly the legal commands (R42). -/
theorem exists_decode_eq_ok_iff (c : Command) : (∃ i, decode c = .ok i) ↔ LegalCommand c := by
  simp only [decode_eq_ok_iff_spells, exists_and_left]
  exact and_iff_left_of_imp fun hlegal => exists_spells hlegal.1

theorem exists_decode_eq_error_of_not_legal {c : Command} (h : ¬ LegalCommand c) :
    ∃ e, decode c = .error e := by
  cases hdec : decode c with
  | error e => exact ⟨e, rfl⟩
  | ok i => exact absurd ((exists_decode_eq_ok_iff c).mp ⟨i, hdec⟩) h

/-- Settles O7. -/
theorem illegalCommandsAnswerIll : Obligations.IllegalCommandsAnswerIll := by
  intro s
  constructor
  · intro hillegal
    obtain ⟨e, hdec⟩ := exists_decode_eq_error_of_not_legal hillegal
    exact ⟨⟨e, hdec⟩, step_next.mpr (.inl ⟨e, hdec, rfl⟩)⟩
  · intro hlegal
    obtain ⟨i, hdec⟩ := (exists_decode_eq_ok_iff s.cmd).mpr hlegal
    refine ⟨⟨i, hdec⟩, s.answered, step_eq_next_answered s, ?_⟩
    rw [State.answered_read, State.rsp_of_ok hdec, responseOf_eq_checked]
    exact (checked_status _ _).1

/-- Commands that decode alike have the same admitted responses (R14). -/
theorem Admitted.of_decode_eq {c d : Command} (h : decode c = decode d) {p : Response}
    (hp : Admitted c p) : Admitted d p := by
  rwa [Admitted, ← h]

/-- Settles O8: the two commands decode to the one instruction both spell, so what one admits the
other admits. -/
theorem ignoredFieldsDoNotMatter : Obligations.IgnoredFieldsDoNotMatter := by
  intro s c d hc hd hsame
  have hdecode : decode c = decode d := by
    obtain ⟨i, hi⟩ := exists_spells hc.1
    rw [(decode_eq_ok_iff_spells c i).mpr ⟨hc, hi⟩, (decode_eq_ok_iff_spells d i).mpr
      ⟨hd, (sameReadFields_iff_spells hi).mp hsame⟩]
  have hread : Admitted d (s.present c).rsp := (admitted_rsp (s.present c)).of_decode_eq hdecode
  exact ⟨_, _, step_eq_next_answered _, step_eq_next_answered _,
    sameResponse_of_admitted hread (admitted_rsp (s.present d))⟩

/-! ## The result formats -/

theorem toNat_wordResult_lt {w : Width} (v : BitVec w.bits) :
    (wordResult v).toNat < 2 ^ w.bits := by
  rw [wordResult, BitVec.toNat_setWidth]
  exact (Nat.mod_le _ _).trans_lt v.isLt

theorem toNat_boolResult_le (c : Bool) : (boolResult c).toNat ≤ 1 := by
  cases c <;> decide

/-- A count of at most `W` is within the format of the three counts (R45). -/
theorem toNat_countResult_le_formatBound {c : Command} {n : Nat} (hop : 6 ≤ opField c)
    (hn : n ≤ (widthField c).bits) : (countResult n).toNat ≤ formatBound c := by
  rw [formatBound, if_neg (by omega), if_neg (by omega), countResult, BitVec.toNat_ofNat]
  exact (Nat.mod_le _ _).trans hn

theorem clzRef_le {W : Nat} (x : BitVec W) (h : x ≠ 0) : clzRef x h ≤ W :=
  (Nat.sub_le _ _).trans (Nat.sub_le _ _)

theorem ctzRef_le {W : Nat} (x : BitVec W) (h : x ≠ 0) : ctzRef x h ≤ W :=
  (lowestSet_spec x h).2.1.le

/-- A result of an operation is within the format of the operation (R45). -/
theorem toNat_le_formatBound {c : Command} {i : Instr} (hi : Spells c i) {cfg : Cfg} {r : Field64}
    (hr : resultOf cfg i = some r) : r.toNat ≤ formatBound c := by
  have hcontract := contract_of_resultOf_eq_some hr
  have hok : ¬ Violated i := fun hbad => by
    simp [(resultOf_eq_none_iff cfg i).mpr hbad] at hr
  cases i with
  | bcast w v =>
    obtain ⟨hop, rfl, -⟩ := hi
    obtain rfl := Option.some.inj hr
    simpa [formatBound, hop] using Nat.le_sub_one_of_lt (toNat_wordResult_lt _)
  | haszero | haseq | haslt | hasgt | hasbtw =>
    rw [Contract] at hcontract
    simpa [formatBound, hi.1, hcontract] using toNat_boolResult_le _
  | popcnt w p x =>
    obtain ⟨hop, rfl, -⟩ := hi
    rw [Contract] at hcontract
    rw [hcontract]
    exact toNat_countResult_le_formatBound (by omega) (popcountRef_le _)
  | clz w p x =>
    obtain ⟨hop, rfl, -⟩ := hi
    have hne : operand (widthField c) x ≠ 0 := (operand_eq_zero_iff _ x).not.mpr hok
    rw [hcontract hne]
    exact toNat_countResult_le_formatBound (by omega) (clzRef_le _ hne)
  | ctz w p x =>
    obtain ⟨hop, rfl, -⟩ := hi
    have hne : operand (widthField c) x ≠ 0 := (operand_eq_zero_iff _ x).not.mpr hok
    rw [hcontract hne]
    exact toNat_countResult_le_formatBound (by omega) (ctzRef_le _ hne)

/-- Settles O13. -/
theorem resultWithinFormat : Obligations.ResultWithinFormat := by
  intro s t hstep hpv hill
  rcases step_next.mp hstep with ⟨e, -, rfl⟩ | ⟨i, hdec, hexec⟩
  · simp at hill
  · obtain ⟨-, hi⟩ := (decode_eq_ok_iff_spells s.cmd i).mp hdec
    rcases exec_next.mp hexec with ⟨r, hr, rfl⟩ | ⟨-, rfl⟩
    · exact toNat_le_formatBound hi hr
    · simp at hpv

/-! ## The assembler's lines -/

/-- The assembler takes a number for a word operand exactly when it is that of a word that fits
(R47). -/
theorem asmWord_eq_ok_iff (w : Width) (n : Nat) (x : Field64) :
    asmWord w n = .ok x ↔ w.fits x = true ∧ x.toNat = n := by
  have hbits : 2 ^ w.bits ≤ 2 ^ 64 := Nat.pow_le_pow_right (by decide) (by cases w <;> decide)
  rw [asmWord, fits_iff]
  split
  · next hn =>
    have hmod : n % 2 ^ 64 = n := Nat.mod_eq_of_lt (hn.trans_le hbits)
    simp only [Except.ok.injEq, BitVec.toNat_eq, BitVec.toNat_ofNat, hmod]
    constructor
    · rintro rfl
      exact ⟨hn, rfl⟩
    · rintro ⟨-, rfl⟩
      rfl
  · next hn => exact iff_of_false nofun fun ⟨hx, hxn⟩ => hn (hxn ▸ hx)

theorem asmByte_eq_ok_iff (n : Nat) (a : Byte) : asmByte n = .ok a ↔ a.toNat = n := by
  rw [asmByte]
  split
  · next hn =>
    have hmod : n % 2 ^ 8 = n := Nat.mod_eq_of_lt hn
    simp only [Except.ok.injEq, BitVec.toNat_eq, BitVec.toNat_ofNat, hmod, eq_comm]
  · next hn => exact iff_of_false nofun fun ha => hn (ha ▸ a.isLt)

/-- A sequence of checks accepts exactly when the first check does and then the rest. -/
theorem except_bind_eq_ok_iff {ε α β : Type} {m : Except ε α} {k : α → Except ε β} {b : β} :
    m >>= k = .ok b ↔ ∃ a, m = .ok a ∧ k a = .ok b := by
  cases m <;> simp [bind, Except.bind]

/-- The path a line requests says whether `.f` is written (R47). -/
theorem path_beq_fast (l : AsmLine) : (l.path == .fast) = l.suffix := by
  rw [AsmLine.path]
  cases l.suffix <;> rfl

theorem assemble_eq_ok_iff (l : AsmLine) (i : Instr) :
    l.assemble = .ok i ↔
      (l.suffix = true → l.mnemonic.allowsSuffix = true) ∧ l.form = .ok i := by
  rw [AsmLine.assemble]
  cases l.suffix <;> cases l.mnemonic.allowsSuffix <;> simp

theorem allowsSuffix_ofInstr (i : Instr) :
    (AsmLine.ofInstr i).suffix = true → (AsmLine.ofInstr i).mnemonic.allowsSuffix = true := by
  cases i <;> simp [AsmLine.ofInstr, Mnemonic.allowsSuffix]

theorem form_ofInstr {i : Instr} (h : i.wellFormed = true) :
    (AsmLine.ofInstr i).form = .ok i := by
  cases i
  all_goals
    rw [Instr.wellFormed] at h
    simp only [AsmLine.ofInstr, AsmLine.form, except_bind_eq_ok_iff, asmWord_eq_ok_iff,
      asmByte_eq_ok_iff]
  case bcast => exact ⟨_, rfl, rfl⟩
  case haszero => exact ⟨_, ⟨h, rfl⟩, rfl⟩
  case haseq | haslt | hasgt => exact ⟨_, ⟨h, rfl⟩, _, rfl, rfl⟩
  case hasbtw => exact ⟨_, ⟨h, rfl⟩, _, rfl, _, rfl, rfl⟩
  case popcnt w p x | clz w p x | ctz w p x =>
    exact ⟨x, ⟨h, rfl⟩, by cases p <;> rfl⟩

/-- What a line's form is read as is well formed, and its line is that line: no check loses a digit
(R47). -/
theorem wellFormed_and_ofInstr_eq_of_form {l : AsmLine} {i : Instr} (h : l.form = .ok i)
    (hsuffix : l.suffix = true → l.mnemonic.allowsSuffix = true) :
    i.wellFormed = true ∧ AsmLine.ofInstr i = l := by
  obtain ⟨m, w, f, ops⟩ := l
  rw [AsmLine.form] at h
  split at h
  -- no form of R47
  case h_10 => cases h
  all_goals
    rename_i hm hops
    dsimp only at hm hops
    subst hm hops
    simp only [except_bind_eq_ok_iff, asmWord_eq_ok_iff, asmByte_eq_ok_iff] at h
  -- `bcast`
  case h_1 =>
    obtain ⟨c, rfl, ⟨⟩⟩ := h
    simpa [Instr.wellFormed, AsmLine.ofInstr, Mnemonic.allowsSuffix] using hsuffix
  -- `haszero`
  case h_2 =>
    obtain ⟨x, ⟨hx, rfl⟩, ⟨⟩⟩ := h
    simpa [Instr.wellFormed, AsmLine.ofInstr, Mnemonic.allowsSuffix, hx] using hsuffix
  -- `haseq`, `haslt`, `hasgt`
  case h_3 | h_4 | h_5 =>
    obtain ⟨x, ⟨hx, rfl⟩, a, rfl, ⟨⟩⟩ := h
    simpa [Instr.wellFormed, AsmLine.ofInstr, Mnemonic.allowsSuffix, hx] using hsuffix
  -- `hasbtw`
  case h_6 =>
    obtain ⟨x, ⟨hx, rfl⟩, a, rfl, b, rfl, ⟨⟩⟩ := h
    simpa [Instr.wellFormed, AsmLine.ofInstr, Mnemonic.allowsSuffix, hx] using hsuffix
  -- `popcnt`, `clz`, `ctz`
  case h_7 | h_8 | h_9 =>
    obtain ⟨x, ⟨hx, rfl⟩, ⟨⟩⟩ := h
    simp [Instr.wellFormed, AsmLine.ofInstr, path_beq_fast, hx]

/-- Settles O50. -/
theorem assemblerLinesAreInstructions : Obligations.AssemblerLinesAreInstructions := by
  refine ⟨fun i hwf => ?_, fun l i hline => ?_⟩
  · exact (assemble_eq_ok_iff _ i).mpr ⟨allowsSuffix_ofInstr i, form_ofInstr hwf⟩
  · obtain ⟨hsuffix, hform⟩ := (assemble_eq_ok_iff l i).mp hline
    exact wellFormed_and_ofInstr_eq_of_form hform hsuffix

end Sys2Proof.Machine

/-! SUPPORT. The broadcast word as a number and by its lanes, and the statements of 40_broadcast.md
they settle. -/

namespace Sys2Proof.Machine

/-! ## The broadcast word -/

theorem lanes_pos (w : Width) : 0 < w.lanes := by
  cases w <;> decide

/-- The product with the repunit is not reduced: it is at most `0xFF * REP_W = ONES_W` (R53,
R54). -/
theorem toNat_bc (w : Width) (c : Byte) :
    (bc w.bits c).toNat = c.toNat * (rep w.bits).toNat := by
  obtain ⟨hrep, -⟩ := wordConstants.1 w
  have hpos := Nat.two_pow_pos w.bits
  have hbyte : c.toNat * (rep w.bits).toNat ≤ 0xFF * (rep w.bits).toNat :=
    Nat.mul_le_mul_right _ (Nat.le_of_lt_succ c.isLt)
  have hwide : 8 ≤ w.bits := lane_inside (lanes_pos w)
  rw [bc, BitVec.toNat_mul, BitVec.toNat_setWidth_of_le hwide, Nat.mod_eq_of_lt (by omega)]

/-- A word whose every lane holds the byte is its broadcast: R53 says which word `bc_W(c)` is. -/
theorem eq_bc_of_lane_eq {w : Width} {x : BitVec w.bits} {c : Byte}
    (h : ∀ i, i < w.lanes → lane x i = c) : x = bc w.bits c :=
  eq_of_lane_eq (bits_eq_eight_mul_lanes w).le fun i hi => (h i hi).trans (lane_bc hi c).symm

/-- `BCAST` reads the broadcast word and changes nothing else (R52). -/
theorem exec_bcast (w : Width) (c : Byte) (s : State) :
    exec (.bcast w c) s = .next (s.reading ⟨wordResult (bc w.bits c), false, false⟩) := by
  rw [exec_eq_conclude, responseOf, respBcast, conclude_completed]

/-- Settles O24: the repunit is the sum of the powers `2^(8i)`, and the product with it is not
reduced. -/
theorem bcastFillsEveryLane : Obligations.BcastFillsEveryLane := by
  intro w c s
  obtain ⟨-, hsum⟩ := wordConstants.1 w
  refine ⟨exec_bcast w c s, fun i hi => lane_bc hi c, ?_⟩
  rw [toNat_bc, hsum, List.sum_map_mul_left]

/-! ## The laws of the broadcast, lane by lane -/

theorem bc_injective {w : Width} {c d : Byte} (h : bc w.bits c = bc w.bits d) : c = d := by
  rw [← lane_bc (lanes_pos w) c, h, lane_bc (lanes_pos w)]

theorem bc_and (w : Width) (c d : Byte) :
    bc w.bits c &&& bc w.bits d = bc w.bits (c &&& d) :=
  eq_bc_of_lane_eq fun i hi => by rw [lane_and, lane_bc hi, lane_bc hi]

theorem bc_or (w : Width) (c d : Byte) :
    bc w.bits c ||| bc w.bits d = bc w.bits (c ||| d) :=
  eq_bc_of_lane_eq fun i hi => by rw [lane_or, lane_bc hi, lane_bc hi]

theorem bc_xor (w : Width) (c d : Byte) :
    bc w.bits c ^^^ bc w.bits d = bc w.bits (c ^^^ d) :=
  eq_bc_of_lane_eq fun i hi => by rw [lane_xor, lane_bc hi, lane_bc hi]

/-- The complement of a byte is its difference from 255, so the complement needs no borrow. -/
theorem bc_not (w : Width) (c : Byte) : ~~~(bc w.bits c) = bc w.bits (255 - c) :=
  eq_bc_of_lane_eq fun i hi => by
    rw [lane_not (lane_inside hi), lane_bc hi]
    exact (BitVec.allOnes_sub_eq_not c).symm

/-- Inside the bound no lane of the sum carries. -/
theorem bc_add {w : Width} {c d : Byte} (h : c.toNat + d.toNat ≤ 255) :
    bc w.bits c + bc w.bits d = bc w.bits (c + d) :=
  eq_bc_of_lane_eq fun i hi => by
    have hcarry : ∀ j, j < i → (lane (bc w.bits c) j).toNat + (lane (bc w.bits d) j).toNat < 256 :=
      fun j hj => by
        rw [lane_bc (hj.trans hi), lane_bc (hj.trans hi)]
        omega
    rw [lane_add (lane_inside hi) hcarry, lane_bc hi, lane_bc hi]

/-- Inside the bound no lane of the difference borrows. -/
theorem bc_sub {w : Width} {c d : Byte} (h : d.toNat ≤ c.toNat) :
    bc w.bits c - bc w.bits d = bc w.bits (c - d) :=
  eq_bc_of_lane_eq fun i hi => by
    have hborrow : ∀ j, j < i → (lane (bc w.bits d) j).toNat ≤ (lane (bc w.bits c) j).toNat :=
      fun j hj => by rwa [lane_bc (hj.trans hi), lane_bc (hj.trans hi)]
    rw [lane_sub (lane_inside hi) hborrow, lane_bc hi, lane_bc hi]

/-- The bits of a broadcast are those of the byte, once per lane. -/
theorem popcountRef_bc (w : Width) (c : Byte) :
    popcountRef (bc w.bits c) = w.lanes * popcountRef c := by
  have hlane : ∀ i ∈ Finset.range w.lanes, popcountRef (lane (bc w.bits c) i) = popcountRef c :=
    fun i hi => by rw [lane_bc (Finset.mem_range.mp hi)]
  rw [popcountRef_eq_sum_lanes, Finset.sum_congr rfl hlane, Finset.sum_const, Finset.card_range,
    smul_eq_mul]

/-- Settles O25: each law holds in every lane. -/
theorem broadcastLaws : Obligations.BroadcastLaws := fun w c d =>
  ⟨bc_injective, bc_and w c d, bc_or w c d, bc_xor w c d, bc_not w c, bc_add, bc_sub,
    popcountRef_bc w c⟩

/-! ## The product and its corner cases -/

theorem bc_zero (w : Width) : bc w.bits 0 = 0 :=
  (eq_bc_of_lane_eq fun i _ => lane_zero w.bits i).symm

theorem wordResult_zero (W : Nat) : wordResult (0 : BitVec W) = 0 :=
  BitVec.setWidth_zero 64 W

/-- `ONES_W` is the complement of the broadcast of 0. -/
theorem bc_255 (w : Width) : bc w.bits 255 = ones w.bits := by
  have hnot := bc_not w 0
  rw [bc_zero] at hnot
  exact hnot.symm.trans BitVec.not_zero

theorem bc_one (w : Width) : bc w.bits 1 = rep w.bits := by
  refine BitVec.eq_of_toNat_eq ?_
  rw [toNat_bc]
  exact Nat.one_mul _

theorem toNat_rep_w32 : (rep Width.w32.bits).toNat = 0x01010101 := by decide

theorem toNat_rep_w64 : (rep Width.w64.bits).toNat = 0x0101010101010101 := by decide

/-- Settles O23: the result is the unreduced product, the corner cases are values of the broadcast,
and the example's command decodes to `bcast.64 0xA5`. -/
theorem bcastAnswersProduct : Obligations.BcastAnswersProduct := by
  refine ⟨fun w c s => ?product, fun w s => ⟨?zero, ?ones, ?rep, exec_bcast w 0x80 s,
    exec_bcast w 0x7F s⟩, fun s hcmd => ?wholeStep⟩
  case product =>
    rw [exec_bcast, wordResult_eq_countResult, toNat_bc]
    cases w with
    | w32 => rw [toNat_rep_w32, countResult]
    | w64 => rw [toNat_rep_w64, countResult]
  case zero => rw [exec_bcast, bc_zero, wordResult_zero]
  case ones => rw [exec_bcast, bc_255]
  case rep => rw [exec_bcast, bc_one]
  case wholeStep =>
    have hdec : decode s.cmd = .ok (.bcast .w64 0xA5) := hcmd ▸ by decide
    have hword : wordResult (bc Width.w64.bits 0xA5) = 0xA5A5A5A5A5A5A5A5 := by decide
    rw [stepRunsDecodedInstruction s _ hdec, exec_bcast, hword]

end Sys2Proof.Machine

/-! SUPPORT. The borrow between the lanes of a difference, the byte-predicate formulas as integer
arithmetic, and the statements of 41_zero_byte.md they settle. -/

namespace Sys2Proof.Machine

/-! ## The borrow into a lane -/

/-- What the lanes below lane `i` borrow from it in `x - y`: 1 or 0 (R58). -/
def borrow {W : Nat} (x y : BitVec W) (i : Nat) : Byte :=
  if x.toNat % 2 ^ (8 * i) < y.toNat % 2 ^ (8 * i) then 1 else 0

theorem borrow_eq_zero_or_one {W : Nat} (x y : BitVec W) (i : Nat) :
    borrow x y i = 0 ∨ borrow x y i = 1 := by
  rw [borrow]
  split
  · exact .inr rfl
  · exact .inl rfl

/-- A lane less than the one subtracted from it borrows, whatever is borrowed from it. -/
theorem borrow_succ_of_lane_lt {W : Nat} {x y : BitVec W} {i : Nat}
    (h : (lane x i).toNat < (lane y i).toNat) : borrow x y (i + 1) = 1 := by
  have hlow : x.toNat % 2 ^ (8 * i) < 2 ^ (8 * i) := Nat.mod_lt _ (Nat.two_pow_pos _)
  have hlane : 2 ^ (8 * i) * ((lane x i).toNat + 1) ≤ 2 ^ (8 * i) * (lane y i).toNat :=
    Nat.mul_le_mul_left _ h
  rw [toNat_lane, toNat_lane, Nat.mul_succ] at hlane
  rw [borrow, two_pow_eight_mul_succ, Nat.mod_mul, Nat.mod_mul, if_pos (by omega)]

/-- A sum of residues passes the modulus exactly when reducing it leaves less than a summand. -/
theorem le_add_iff_add_mod_lt {a b m : Nat} (ha : a < m) (hb : b < m) :
    m ≤ a + b ↔ (a + b) % m < b := by
  by_cases hcarry : m ≤ a + b
  · rw [Nat.mod_eq_sub_mod hcarry, Nat.mod_eq_of_lt (by omega)]
    omega
  · rw [Nat.mod_eq_of_lt (by omega)]
    omega

/-- The low lanes of `x` are the sum of those of `x - y` and `y`, which carries where `x - y`
borrows. -/
theorem low_lanes_sub_add_ge_iff {W i : Nat} (hi : 8 * i ≤ W) (x y : BitVec W) :
    2 ^ (8 * i) ≤ (x - y).toNat % 2 ^ (8 * i) + y.toNat % 2 ^ (8 * i) ↔
      x.toNat % 2 ^ (8 * i) < y.toNat % 2 ^ (8 * i) := by
  have hpos := Nat.two_pow_pos (8 * i)
  have hsum : ((x - y).toNat + y.toNat) % 2 ^ (8 * i) = x.toNat % 2 ^ (8 * i) := by
    rw [← Nat.mod_mod_of_dvd _ (Nat.pow_dvd_pow 2 hi), ← BitVec.toNat_add, BitVec.sub_add_cancel]
  rw [le_add_iff_add_mod_lt (Nat.mod_lt _ hpos) (Nat.mod_lt _ hpos), ← Nat.add_mod, hsum]

/-- A lane of a difference is the difference of the lanes, less what the lanes below borrow (R58). -/
theorem lane_sub_eq_sub_borrow {W i : Nat} (hi : 8 * i + 8 ≤ W) (x y : BitVec W) :
    lane (x - y) i = lane x i - lane y i - borrow x y i := by
  have hsplit : 2 ^ W = 2 ^ (8 * i) * 2 ^ (W - 8 * i) := by
    rw [← pow_add, Nat.add_sub_cancel' (by omega)]
  have hdvd : 256 ∣ 2 ^ (W - 8 * i) := Nat.pow_dvd_pow 2 (show 8 ≤ W - 8 * i by omega)
  have hsum : lane x i = lane (x - y) i + lane y i + borrow x y i := by
    conv_lhs => rw [← BitVec.sub_add_cancel x y]
    refine BitVec.eq_of_toNat_eq ?_
    rw [toNat_lane, BitVec.toNat_add, hsplit, Nat.mod_mul_right_div_self, Nat.mod_mod_of_dvd _ hdvd,
      Nat.add_div (Nat.two_pow_pos _), BitVec.toNat_add, BitVec.toNat_add, toNat_lane, toNat_lane,
      borrow]
    simp only [low_lanes_sub_add_ge_iff (show 8 * i ≤ W by omega) x y, apply_ite BitVec.toNat]
    simp [Nat.add_mod]
  rw [hsum, BitVec.sub_sub, BitVec.add_assoc]
  exact (BitVec.add_sub_cancel _ _).symm

/-! ## The lane bits of the zero-detector word -/

/-- The high bit of a lane passes the mask `H_W`. -/
theorem getLsbD_and_bc_high {w : Width} (y : BitVec w.bits) {i : Nat} (hi : i < w.lanes) :
    (y &&& bc w.bits 0x80).getLsbD (8 * i + 7) = (lane y i).msb := by
  have hdiv : (8 * i + 7) / 8 = i := by omega
  have hmod : (8 * i + 7) % 8 = 7 := by omega
  have hmask : ∀ v : Byte, (v &&& 0x80).getLsbD 7 = v.msb := by decide
  rw [getLsbD_eq_lane, hdiv, hmod, lane_and, lane_bc hi, hmask]

/-- The lane bit of `Z_W(x)`, from the lane and the borrow into it (R59). -/
theorem getLsbD_zeroWord {w : Width} (x : BitVec w.bits) {i : Nat} (hi : i < w.lanes) :
    (zeroWord x).getLsbD (8 * i + 7) =
      ((lane x i - 1 - borrow x (bc w.bits 1) i) &&& ~~~(lane x i)).msb := by
  rw [zeroWord, getLsbD_and_bc_high _ hi, lane_and, lane_sub_eq_sub_borrow (lane_inside hi),
    lane_bc hi, lane_not (lane_inside hi)]

/-- A zero lane shows its bit whether or not it is borrowed from (R59). -/
theorem getLsbD_zeroWord_of_lane_eq_zero {w : Width} {x : BitVec w.bits} {j : Nat}
    (hj : j < w.lanes) (hzero : lane x j = 0) : (zeroWord x).getLsbD (8 * j + 7) = true := by
  rw [getLsbD_zeroWord x hj, hzero]
  rcases borrow_eq_zero_or_one x (bc w.bits 1) j with hborrow | hborrow
  · rw [hborrow]; decide
  · rw [hborrow]; decide

/-- Where no lane up to `i` is zero, lane `i` shows no bit (R58, R59). -/
theorem getLsbD_zeroWord_of_lanes_ne_zero {w : Width} {x : BitVec w.bits} {i : Nat}
    (hi : i < w.lanes) (hne : ∀ k, k ≤ i → lane x k ≠ 0) :
    (zeroWord x).getLsbD (8 * i + 7) = false := by
  have hlow : ∀ k, k ≤ i → ¬ (lane x k).toNat < (1 : Byte).toNat := by
    intro k hk hlt
    exact hne k hk (BitVec.eq_of_toNat_eq (Nat.lt_one_iff.mp hlt))
  rw [zeroWord, getLsbD_and_bc_high _ hi, Bool.eq_false_iff, Ne,
    lt128_lane_msb_iff x (by decide) hi fun k hk => hlow k hk.le]
  exact hlow i le_rfl

/-- A lane of value 1 above a zero lane is borrowed from, and shows its bit (R59). -/
theorem getLsbD_zeroWord_of_lane_eq_one {w : Width} {x : BitVec w.bits} {j : Nat}
    (hj : j + 1 < w.lanes) (hzero : lane x j = 0) (hone : lane x (j + 1) = 1) :
    (zeroWord x).getLsbD (8 * (j + 1) + 7) = true := by
  have hlt : (lane x j).toNat < (lane (bc w.bits 1) j).toNat := by
    rw [hzero, lane_bc (by omega)]
    decide
  rw [getLsbD_zeroWord x hj, hone, borrow_succ_of_lane_lt hlt]
  decide

/-- Settles O27: each lane bit is read off the lane and the borrow into it. -/
theorem zeroWordLaneBits : Obligations.ZeroWordLaneBits := by
  refine ⟨fun w x j hj hzero => ⟨?zeroLane, fun hne i hij => ?below, fun hj' hone => ?spurious⟩,
    by decide, by decide⟩
  case zeroLane => exact getLsbD_zeroWord_of_lane_eq_zero hj hzero
  case below =>
    exact getLsbD_zeroWord_of_lanes_ne_zero (hij.trans hj) fun k hk => hne k (hk.trans_lt hij)
  case spurious => exact getLsbD_zeroWord_of_lane_eq_one hj' hzero hone

/-! ## The contract of `HASZERO` -/

/-- `HASZERO` reads whether some lane is zero and changes nothing else (R58). -/
theorem exec_haszero (w : Width) (x : Field64) (s : State) :
    exec (.haszero w x) s =
      .next (s.reading ⟨boolResult (anyLane (operand w x) fun v => v == 0), false, false⟩) := by
  rw [exec_eq_conclude, responseOf, respHaszero, haszero_eq_anyLane, conclude_completed]

/-- A word result is taken back as the operand it came from (R38, R45). -/
@[simp] theorem operand_wordResult (w : Width) (v : BitVec w.bits) :
    operand w (wordResult v) = v := by
  have hle : w.bits ≤ 64 := by cases w <;> decide
  rw [operand, wordResult, BitVec.setWidth_setWidth_of_le _ hle, BitVec.setWidth_eq]

/-- In a broadcast word some lane qualifies exactly when the byte does. -/
theorem anyLane_bc (w : Width) (c : Byte) (P : Byte → Bool) : anyLane (bc w.bits c) P = P c := by
  refine (eq_anyLane_of_iff ⟨fun hP => ⟨0, lanes_pos w, ?_⟩, ?_⟩).symm
  · rwa [lane_bc (lanes_pos w)]
  · rintro ⟨i, hi, hP⟩
    rwa [lane_bc hi] at hP

/-- `HASZERO` of a broadcast word answers whether the byte is zero. -/
theorem exec_haszero_bc (w : Width) (c : Byte) (s : State) :
    exec (.haszero w (wordResult (bc w.bits c))) s =
      .next (s.reading ⟨boolResult (c == 0), false, false⟩) := by
  rw [exec_haszero, operand_wordResult, anyLane_bc]

/-- Settles O26: the corner words are broadcasts, and the example's command decodes to
`haszero.32 0x11003344`. -/
theorem haszeroAnswersZeroLane : Obligations.HaszeroAnswersZeroLane := by
  refine ⟨exec_haszero, fun w s => ⟨?zero, ?ones, exec_haszero_bc w 0x80 s, ?rep⟩,
    fun s hcmd => ?wholeStep⟩
  case zero =>
    rw [← wordResult_zero w.bits, ← bc_zero]
    exact exec_haszero_bc w 0 s
  case ones =>
    rw [← bc_255]
    exact exec_haszero_bc w 255 s
  case rep =>
    rw [← bc_one]
    exact exec_haszero_bc w 1 s
  case wholeStep =>
    have hdec : decode s.cmd = .ok (.haszero .w32 0x11003344) := hcmd ▸ by decide
    have hlane : (anyLane (operand .w32 0x11003344) fun v => v == 0) = true := by decide
    rw [stepRunsDecodedInstruction s _ hdec, exec_haszero, hlane, boolResult_true]

/-! ## The byte-predicate formulas as integer arithmetic -/

/-- A difference as an integer, reduced modulo `2^W` (R8). -/
theorem toNat_sub_eq_mod {W : Nat} (x y : BitVec W) :
    (x - y).toNat = (x.toNat + 2 ^ W - y.toNat) % 2 ^ W := by
  rw [BitVec.toNat_sub, Nat.add_comm, ← Nat.add_sub_assoc y.isLt.le]

/-- A word is tested against zero as an integer. -/
theorem bne_zero_eq_decide_toNat {W : Nat} (v : BitVec W) : (v != 0) = decide (v.toNat ≠ 0) := by
  rw [Bool.eq_iff_iff, bne_iff_ne, decide_eq_true_eq, Ne, BitVec.toNat_eq]
  simp

/-- `LT128` as integer arithmetic (R63); `Z` is its case `a = 1` (R56). -/
theorem toNat_lt128 {w : Width} (x : BitVec w.bits) (a : Byte) :
    (lt128 x a).toNat =
      ((x.toNat + 2 ^ w.bits - a.toNat * (rep w.bits).toNat) % 2 ^ w.bits) &&&
        (2 ^ w.bits - 1 - x.toNat) &&& (0x80 * (rep w.bits).toNat) := by
  rw [lt128, BitVec.toNat_and, BitVec.toNat_and, toNat_sub_eq_mod, BitVec.toNat_not, toNat_bc,
    toNat_bc]
  rfl

/-- `GT127` as integer arithmetic (R65): the bias `127 - a` does not wrap. -/
theorem toNat_gt127 {w : Width} (x : BitVec w.bits) {a : Byte} (ha : a.toNat ≤ 127) :
    (gt127 x a).toNat =
      (((x.toNat + (127 - a.toNat) * (rep w.bits).toNat) % 2 ^ w.bits) ||| x.toNat) &&&
        (0x80 * (rep w.bits).toNat) := by
  have hbias : (127 - a : Byte).toNat = 127 - a.toNat :=
    BitVec.toNat_sub_of_le (x := (127 : Byte)) ha
  rw [gt127, BitVec.toNat_and, BitVec.toNat_or, BitVec.toNat_add, toNat_bc, toNat_bc, hbias]
  rfl

/-- `B` as integer arithmetic (R71): neither bias wraps. -/
theorem toNat_betweenWord {w : Width} (x : BitVec w.bits) {a b : Byte} (ha : a.toNat ≤ 127)
    (hb : b.toNat ≤ 128) :
    (betweenWord x a b).toNat =
      (((127 + b.toNat) * (rep w.bits).toNat + 2 ^ w.bits -
          (x.toNat &&& 0x7F * (rep w.bits).toNat)) % 2 ^ w.bits) &&&
        (2 ^ w.bits - 1 - x.toNat) &&&
        (((x.toNat &&& 0x7F * (rep w.bits).toNat) + (128 - a.toNat) * (rep w.bits).toNat) %
          2 ^ w.bits) &&&
        (0x80 * (rep w.bits).toNat) := by
  have hupper : (127 + b : Byte).toNat = 127 + b.toNat :=
    BitVec.toNat_add_of_lt (show 127 + b.toNat < 256 by omega)
  have hlower : (128 - a : Byte).toNat = 128 - a.toNat :=
    BitVec.toNat_sub_of_le (x := (128 : Byte)) (show a.toNat ≤ 128 by omega)
  have hlow : (x &&& lowBits w.bits).toNat = x.toNat &&& 0x7F * (rep w.bits).toNat := by
    rw [BitVec.toNat_and, lowBits, toNat_bc]
    rfl
  rw [betweenWord, BitVec.toNat_and, BitVec.toNat_and, BitVec.toNat_and, toNat_sub_eq_mod,
    BitVec.toNat_not, BitVec.toNat_add, hlow, toNat_bc, toNat_bc, hupper, hlower, highBits,
    toNat_bc]
  rfl

/-- Settles O37. -/
theorem predicateFormulasByArithmetic : Obligations.PredicateFormulasByArithmetic := by
  intro w x a b
  refine ⟨?zeroWord, bne_zero_eq_decide_toNat _, fun _ => toNat_lt128 x a, toNat_gt127 x,
    fun ha hb _ => ⟨toNat_betweenWord x ha hb, bne_zero_eq_decide_toNat _⟩⟩
  case zeroWord =>
    have hone : (1 : Byte).toNat * (rep w.bits).toNat = (rep w.bits).toNat := Nat.one_mul _
    rw [zeroWord_eq_lt128, toNat_lt128, hone]

end Sys2Proof.Machine

/-! SUPPORT. Equality with a byte, as a lane test and as a half-open interval, and the statement of
42_byte_equal.md it settles. -/

namespace Sys2Proof.Machine

/-! ## The contract of `HASEQ` -/

/-- `HASEQ` reads whether some lane equals `a` and changes nothing else (R62). -/
theorem exec_haseq (w : Width) (x : Field64) (a : Byte) (s : State) :
    exec (.haseq w x a) s =
      .next (s.reading ⟨boolResult (anyLane (operand w x) fun v => v == a), false, false⟩) := by
  rw [exec_eq_conclude, responseOf, respHaseq, haseq_eq_anyLane, conclude_completed]

/-- A lane of `x ^ bc_W(a)` is that lane of `x` with `a` (R60). -/
theorem lane_xor_bc {w : Width} (x : BitVec w.bits) (a : Byte) {i : Nat} (hi : i < w.lanes) :
    lane (x ^^^ bc w.bits a) i = lane x i ^^^ a := by
  rw [lane_xor, lane_bc hi]

theorem haseq_bc (w : Width) (c a : Byte) : haseq (bc w.bits c) a = (c == a) := by
  rw [haseq_eq_anyLane, anyLane_bc]

/-! ## `HASEQ` as `HASBTW` -/

/-- Inside its bounds `HASBTW` reads whether some lane lies in `[a, b)` and changes nothing else
(R72). -/
theorem exec_hasbtw_of_bounds (w : Width) (x : Field64) {a b : Byte} (s : State)
    (ha : a.toNat ≤ 127) (hb : b.toNat ≤ 128) (hab : a.toNat < b.toNat) :
    exec (.hasbtw w x a b) s = .next (s.reading ⟨boolResult (anyLane (operand w x) fun v =>
      a.toNat ≤ v.toNat && v.toNat < b.toNat), false, false⟩) := by
  have hok : ¬ Violated (.hasbtw w x a b) := by
    rw [Violated]
    omega
  obtain ⟨_, rfl, hexec⟩ := exec_of_not_violated s hok
  exact hexec

theorem toNat_byte_succ {a : Byte} (ha : a.toNat ≤ 127) : (a + 1).toNat = a.toNat + 1 :=
  BitVec.toNat_add_of_lt (show a.toNat + 1 < 256 by omega)

/-- The half-open interval `[a, a+1)` holds the byte `a` alone, while `a + 1` does not wrap. -/
theorem byte_mem_Ico_succ {a : Byte} (ha : a.toNat ≤ 127) (v : Byte) :
    (decide (a.toNat ≤ v.toNat) && decide (v.toNat < (a + 1).toNat)) = (v == a) := by
  rw [Bool.eq_iff_iff, Bool.and_eq_true, decide_eq_true_eq, decide_eq_true_eq, beq_iff_eq,
    BitVec.toNat_eq, toNat_byte_succ ha]
  omega

/-- `HASBTW` on `[a, a+1)` is `HASEQ` of `a`, the round trip of R62. -/
theorem exec_hasbtw_succ (w : Width) (x : Field64) {a : Byte} (s : State) (ha : a.toNat ≤ 127) :
    exec (.hasbtw w x a (a + 1)) s = exec (.haseq w x a) s := by
  have hsucc := toNat_byte_succ ha
  rw [exec_hasbtw_of_bounds w x s ha (by omega) (by omega), exec_haseq]
  simp only [byte_mem_Ico_succ ha]

/-- Settles O28: the lanes of the exclusive-or give the contract of `HASEQ`, the other laws are cases
of that contract, and the example's command decodes to `haseq.64 0x0102030405060708, 0x05`. -/
theorem haseqAnswersEqualLane : Obligations.HaseqAnswersEqualLane := by
  refine ⟨exec_haseq, fun w x a i hi => ⟨rfl, lane_xor_bc x a hi, BitVec.xor_eq_zero_iff⟩, haseq_bc,
    fun w x s => ?zero, fun w x a s => exec_hasbtw_succ w x s, fun s hcmd => ?wholeStep⟩
  case zero => rw [exec_haseq, exec_haszero]
  case wholeStep =>
    have hdec : decode s.cmd = .ok (.haseq .w64 0x0102030405060708 0x05) := hcmd ▸ by decide
    have hlane : (anyLane (operand .w64 0x0102030405060708) fun v => v == 0x05) = true := by decide
    rw [stepRunsDecodedInstruction s _ hdec, exec_haseq, hlane, boolResult_true]

end Sys2Proof.Machine

/-! SUPPORT. The lane bits of the helper and between words, the contracts of the byte-range operations,
and the statements of 43_byte_range.md they settle. -/

namespace Sys2Proof.Machine

/-! ## The helper words `LT128` and `GT127` -/

/-- At the lowest lane below `a`, nothing is borrowed from below and `LT128` shows its bit (R64). -/
theorem getLsbD_lt128_of_lowest {w : Width} (x : BitVec w.bits) {a : Byte} (ha : a.toNat ≤ 128)
    {j : Nat} (hj : j < w.lanes) (hlt : (lane x j).toNat < a.toNat)
    (hlow : ∀ i, i < j → a.toNat ≤ (lane x i).toNat) :
    (lt128 x a).getLsbD (8 * j + 7) = true := by
  rw [lt128, getLsbD_and_bc_high _ hj]
  exact (lt128_lane_msb_iff x ha hj fun i hi => (hlow i hi).not_gt).mpr hlt

/-- No value is below 0 (R64). -/
theorem lt128_zero {w : Width} (x : BitVec w.bits) : lt128 x 0 = 0 := by
  by_contra hne
  obtain ⟨i, -, hlt⟩ := (lt128_ne_zero_iff (a := 0) x (Nat.zero_le 128)).mp hne
  exact Nat.not_lt_zero _ hlt

/-- Settles O29. -/
theorem lessThanHelperContract : Obligations.LessThanHelperContract :=
  ⟨fun _ x _ ha =>
      ⟨lt128_ne_zero_iff x ha, fun _ hj hlt hlow => getLsbD_lt128_of_lowest x ha hj hlt hlow⟩,
    fun _ x => lt128_zero x, by decide⟩

/-- Settles O30. -/
theorem greaterThanHelperContract : Obligations.GreaterThanHelperContract :=
  ⟨fun _ x _ ha => gt127_ne_zero_iff x ha, by decide⟩

/-- At 128, where both helpers are valid, the branches of `HASLT` agree: each asks for a lane of at
most 127 (R74). -/
theorem lt128_bne_zero_eq_gt127_not {w : Width} (x : BitVec w.bits) :
    (lt128 x 128 != 0) = (gt127 (~~~x) 127 != 0) := by
  have hvalue : ∀ v : Byte, v.toNat < (128 : Byte).toNat ↔ 255 - v.toNat > (127 : Byte).toNat := by
    decide
  rw [Bool.eq_iff_iff, bne_iff_ne, bne_iff_ne, lt128_ne_zero_iff x (by decide),
    gt127_ne_zero_iff _ (by decide)]
  refine exists_congr fun i => and_congr_right fun hi => ?_
  rw [toNat_lane_not hi, hvalue]

/-- Settles O36: the branches of `HASGT` agree at 127 because those of `HASLT` agree at 128 on the
complement. -/
theorem predicatePiecesRelate : Obligations.PredicatePiecesRelate := by
  refine ⟨fun w x => ⟨zeroWord_eq_lt128 x, rfl, lt128_bne_zero_eq_gt127_not x, ?complement⟩,
    fun a ha => ?haslt, fun a ha => ?hasgt⟩
  case complement => rw [lt128_bne_zero_eq_gt127_not, BitVec.not_not]
  case haslt | hasgt => rw [toNat_255_sub]; omega

/-! ## Lane conditions -/

/-- A condition no byte meets is met by no lane. -/
theorem anyLane_eq_false {W : Nat} (x : BitVec W) {P : Byte → Bool} (h : ∀ v, P v = false) :
    anyLane x P = false := by
  simp [anyLane, h]

/-- Some lane differs from `c` exactly when the word is not the broadcast of `c`. -/
theorem anyLane_bne {w : Width} (x : BitVec w.bits) (c : Byte) :
    (anyLane x fun v => v != c) = (x != bc w.bits c) := by
  refine (eq_anyLane_of_iff ?_).symm
  simp only [bne_iff_ne]
  constructor
  · intro hne
    by_contra hall
    push Not at hall
    exact hne (eq_bc_of_lane_eq hall)
  · rintro ⟨i, hi, hlane⟩ rfl
    exact hlane (lane_bc hi c)

/-- A whole step of a decoded predicate, with its condition evaluated. -/
theorem step_of_exec_boolResult {s : State} {i : Instr} {c d : Bool} (hdec : decode s.cmd = .ok i)
    (hexec : exec i s = .next (s.reading ⟨boolResult c, false, false⟩)) (hcd : c = d) :
    step s = .next (s.reading ⟨boolResult d, false, false⟩) := by
  rw [stepRunsDecodedInstruction s _ hdec, hexec, hcd]

/-! ## The contract of `HASLT` -/

/-- `HASLT` reads whether some lane is below `a` and changes nothing else (R68). -/
theorem exec_haslt (w : Width) (x : Field64) (a : Byte) (s : State) :
    exec (.haslt w x a) s = .next (s.reading
      ⟨boolResult (anyLane (operand w x) fun v => v.toNat < a.toNat), false, false⟩) := by
  rw [exec_eq_conclude, responseOf, respHaslt, haslt_eq_anyLane, conclude_completed]

/-- Settles O31: the corner cases are values of the lane condition. -/
theorem hasltAnswersLaneBelow : Obligations.HasltAnswersLaneBelow := by
  refine ⟨exec_haslt, fun w x s => ⟨?zero, ?one, ?top⟩, fun w a s => ?ones, fun s hcmd => ?low,
    fun s hcmd => ?high, fun s hcmd => ?equal⟩
  case zero =>
    have hnone : ∀ v : Byte, decide (v.toNat < (0 : Byte).toNat) = false := by decide
    rw [exec_haslt, anyLane_eq_false _ hnone, boolResult_false]
  case one =>
    have hzero : ∀ v : Byte, decide (v.toNat < (1 : Byte).toNat) = (v == 0) := by decide
    simp only [exec_haslt, exec_haszero, hzero]
  case top =>
    have hne : ∀ v : Byte, decide (v.toNat < (255 : Byte).toNat) = (v != 255) := by decide
    simp only [exec_haslt, hne, anyLane_bne, bc_255]
  case ones =>
    have hle : ¬ (255 : Byte).toNat < a.toNat := Nat.not_lt.mpr (Nat.le_of_lt_succ a.isLt)
    rw [exec_haslt, ← bc_255, operand_wordResult, anyLane_bc, decide_eq_false hle,
      boolResult_false]
  case low =>
    have hdec : decode s.cmd = .ok (.haslt .w64 0x0102030405060708 0x03) := hcmd ▸ by decide
    exact step_of_exec_boolResult (d := true) hdec (exec_haslt _ _ _ s) (by decide)
  case high =>
    have hdec : decode s.cmd = .ok (.haslt .w32 0xF0E0D0C0 0xC1) := hcmd ▸ by decide
    exact step_of_exec_boolResult (d := true) hdec (exec_haslt _ _ _ s) (by decide)
  case equal =>
    have hdec : decode s.cmd = .ok (.haslt .w32 0xF0E0D0C0 0xC0) := hcmd ▸ by decide
    exact step_of_exec_boolResult (d := false) hdec (exec_haslt _ _ _ s) (by decide)

/-! ## The contract of `HASGT` -/

/-- `HASGT` reads whether some lane is above `a` and changes nothing else (R70). -/
theorem exec_hasgt (w : Width) (x : Field64) (a : Byte) (s : State) :
    exec (.hasgt w x a) s = .next (s.reading
      ⟨boolResult (anyLane (operand w x) fun v => v.toNat > a.toNat), false, false⟩) := by
  rw [exec_eq_conclude, responseOf, respHasgt, hasgt_eq_anyLane, conclude_completed]

/-- Settles O32: the corner cases are values of the lane condition. -/
theorem hasgtAnswersLaneAbove : Obligations.HasgtAnswersLaneAbove := by
  refine ⟨exec_hasgt, fun w x s => ⟨?top, ?zero, ?belowTop⟩, fun s hcmd => ?low,
    fun s hcmd => ?high, fun s hcmd => ?equal⟩
  case top =>
    have hnone : ∀ v : Byte, decide (v.toNat > (255 : Byte).toNat) = false := by decide
    rw [exec_hasgt, anyLane_eq_false _ hnone, boolResult_false]
  case zero =>
    have hne : ∀ v : Byte, decide (v.toNat > (0 : Byte).toNat) = (v != 0) := by decide
    simp only [exec_hasgt, hne, anyLane_bne, bc_zero]
  case belowTop =>
    have htop : ∀ v : Byte, decide (v.toNat > (254 : Byte).toNat) = (v == 0xFF) := by decide
    simp only [exec_hasgt, htop]
  case low =>
    have hdec : decode s.cmd = .ok (.hasgt .w64 0x0102030405060708 0x07) := hcmd ▸ by decide
    exact step_of_exec_boolResult (d := true) hdec (exec_hasgt _ _ _ s) (by decide)
  case high =>
    have hdec : decode s.cmd = .ok (.hasgt .w32 0x10208140 0x80) := hcmd ▸ by decide
    exact step_of_exec_boolResult (d := true) hdec (exec_hasgt _ _ _ s) (by decide)
  case equal =>
    have hdec : decode s.cmd = .ok (.hasgt .w32 0x10208040 0x80) := hcmd ▸ by decide
    exact step_of_exec_boolResult (d := false) hdec (exec_hasgt _ _ _ s) (by decide)

/-! ## The contract of `HASBTW` -/

/-- Settles O33: `[0, 128)` holds the bytes with a clear high bit, and `[0, 1)` is `HASEQ` of 0. -/
theorem hasbtwAnswersLaneBetween : Obligations.HasbtwAnswersLaneBetween := by
  refine ⟨fun w x a b s => exec_hasbtw_of_bounds w x s, fun w x s => ⟨?lowHalf, ?zero⟩,
    fun s hcmd => ?wholeStep⟩
  case lowHalf =>
    have hclear : ∀ v : Byte,
        (decide ((0 : Byte).toNat ≤ v.toNat) && decide (v.toNat < (128 : Byte).toNat)) =
          (v.getLsbD 7 == false) := by decide
    rw [exec_hasbtw_of_bounds w x s (by decide) (by decide) (by decide)]
    simp only [hclear]
  case zero =>
    have hsucc : exec (.hasbtw w x 0 1) s = exec (.haseq w x 0) s :=
      exec_hasbtw_succ w x s (Nat.zero_le 127)
    rw [hsucc, exec_haseq, exec_haszero]
  case wholeStep =>
    have hdec : decode s.cmd = .ok (.hasbtw .w64 0x0102030405060708 0x02 0x05) := hcmd ▸ by decide
    exact step_of_exec_boolResult (d := true) hdec
      (exec_hasbtw_of_bounds _ _ s (by decide) (by decide) (by decide)) (by decide)

/-- Settles O34: outside its bounds `HASBTW` has no result. -/
theorem hasbtwBadBoundsReportPv : Obligations.HasbtwBadBoundsReportPv := by
  intro w x a b s hbad
  have hnone : resultOf s.cfg (.hasbtw w x a b) = none := (resultOf_eq_none_iff s.cfg _).mpr hbad
  exact ⟨_, exec_next.mpr (.inr ⟨hnone, rfl⟩)⟩

/-! ## The lane bits of the between word -/

/-- The bits of a lane below its high bit do not pass the mask `H_W`. -/
theorem getLsbD_and_bc_high_of_lt {w : Width} (y : BitVec w.bits) {i k : Nat} (hi : i < w.lanes)
    (hk : k < 7) : (y &&& bc w.bits 0x80).getLsbD (8 * i + k) = false := by
  have hdiv : (8 * i + k) / 8 = i := by omega
  have hmod : (8 * i + k) % 8 = k := by omega
  have hmask : ∀ l, l < 7 → (0x80 : Byte).getLsbD l = false := by decide
  rw [getLsbD_eq_lane, hdiv, hmod, lane_and, lane_bc hi, BitVec.getLsbD_and, hmask k hk,
    Bool.and_false]

/-- Every lane bit of `B_W` is exact (R73). -/
theorem getLsbD_betweenWord_iff {w : Width} (x : BitVec w.bits) {a b : Byte} (ha : a.toNat ≤ 127)
    (hb : b.toNat ≤ 128) {i : Nat} (hi : i < w.lanes) :
    (betweenWord x a b).getLsbD (8 * i + 7) = true ↔
      a.toNat ≤ (lane x i).toNat ∧ (lane x i).toNat < b.toNat := by
  rw [betweenWord, highBits, getLsbD_and_bc_high _ hi, betweenWord_lane_msb_iff x ha hb hi]

/-- `HASBTW` on `[a, a+1)` asks for the byte `a` (R73). -/
theorem hasbtw_succ {w : Width} (x : BitVec w.bits) {a : Byte} (ha : a.toNat ≤ 127) :
    hasbtw x a (a + 1) = haseq x a := by
  have hsucc := toNat_byte_succ ha
  rw [hasbtw_eq_anyLane x ha (by omega), haseq_eq_anyLane]
  simp only [byte_mem_Ico_succ ha]

/-- `HASBTW` on `[a, 128)` asks for a lane in `a` to 127 (R73). -/
theorem hasbtw_128 {w : Width} (x : BitVec w.bits) {a : Byte} (ha : a.toNat ≤ 127) :
    hasbtw x a 128 = anyLane x fun v => a.toNat ≤ v.toNat && v.toNat ≤ 127 := by
  have hupper : ∀ v : Byte, decide (v.toNat < (128 : Byte).toNat) = decide (v.toNat ≤ 127) := by
    decide
  rw [hasbtw_eq_anyLane x ha (by decide)]
  simp only [hupper]

/-- `HASBTW` on `[0, b)` is `HASLT` of `b` (R73). -/
theorem hasbtw_zero {w : Width} (x : BitVec w.bits) {b : Byte} (hb : b.toNat ≤ 128) :
    hasbtw x 0 b = haslt x b := by
  have hlower : ∀ v : Byte, decide ((0 : Byte).toNat ≤ v.toNat) = true := by decide
  rw [hasbtw_eq_anyLane x (by decide) hb, haslt_eq_anyLane]
  simp only [hlower, Bool.true_and]

/-- Settles O35. -/
theorem betweenWordIsExact : Obligations.BetweenWordIsExact :=
  ⟨fun _ x _ _ ha hb _ _ hi =>
      ⟨getLsbD_betweenWord_iff x ha hb hi, fun _ hk => getLsbD_and_bc_high_of_lt _ hi hk⟩,
    fun _ x _ ha => ⟨hasbtw_succ x ha, hasbtw_128 x ha⟩,
    fun _ x _ _ hb => hasbtw_zero x hb⟩

end Sys2Proof.Machine

/-! SUPPORT. The set bits of a word as a finite set, the contracts of the bit counts, the fallbacks as
integer arithmetic, and the statements of 44_bitcount.md they settle. -/

namespace Sys2Proof.Machine

/-! ## The set bits of a word -/

/-- The positions of the set bits of a word. -/
def setBits {W : Nat} (x : BitVec W) : Finset Nat :=
  (Finset.range W).filter fun i => x.getLsbD i = true

theorem mem_setBits {W : Nat} {x : BitVec W} {i : Nat} :
    i ∈ setBits x ↔ x.getLsbD i = true := by
  rw [setBits, Finset.mem_filter, Finset.mem_range]
  exact and_iff_right_of_imp BitVec.lt_of_getLsbD

/-- The reference popcount is the number of set bits (R77). -/
theorem popcountRef_eq_card_setBits {W : Nat} (x : BitVec W) :
    popcountRef x = (setBits x).card := by
  have hcard : (setBits x).card =
      ((List.range W).filter fun i => decide (x.getLsbD i = true)).length := rfl
  simp only [popcountRef, List.countP_eq_length_filter, hcard, Bool.decide_eq_true]

theorem setBits_operand (w : Width) (x : Field64) :
    setBits (operand w x) = (Finset.range w.bits).filter fun i => x.getLsbD i = true := by
  ext i
  rw [mem_setBits, getLsbD_operand, Finset.mem_filter, Finset.mem_range, Bool.and_eq_true,
    decide_eq_true_eq]

/-- Position `m` is the lowest set bit when it is set and none below it is (R77). -/
theorem lowestSet_eq {W m : Nat} {x : BitVec W} (h : x ≠ 0) (hm : x.getLsbD m = true)
    (hbelow : ∀ j, j < m → x.getLsbD j = false) : lowestSet x h = m := by
  obtain ⟨hset, -, hlow⟩ := lowestSet_spec x h
  rcases lt_trichotomy (lowestSet x h) m with hlt | heq | hgt
  · simp [hbelow _ hlt] at hset
  · exact heq
  · simp [hlow _ hgt] at hm

/-- Position `m` is the highest set bit when it is set and none above it is (R77). -/
theorem highestSet_eq {W m : Nat} {x : BitVec W} (h : x ≠ 0) (hm : x.getLsbD m = true)
    (habove : ∀ j, m < j → x.getLsbD j = false) : highestSet x h = m := by
  obtain ⟨hset, -, hhigh⟩ := highestSet_spec x h
  rcases lt_trichotomy (highestSet x h) m with hlt | heq | hgt
  · simp [hhigh _ hlt] at hm
  · exact heq
  · simp [habove _ hgt] at hset

theorem ne_zero_of_getLsbD {W m : Nat} {x : BitVec W} (hm : x.getLsbD m = true) : x ≠ 0 := by
  rintro rfl
  simp at hm

/-! ## The reference popcount of special words -/

theorem popcountRef_zero (W : Nat) : popcountRef (0 : BitVec W) = 0 :=
  popcountRef_of_getLsbD_eq_lt (Nat.zero_le W) fun i _ => by simp

theorem popcountRef_ones (W : Nat) : popcountRef (ones W) = W :=
  popcountRef_of_getLsbD_eq_lt le_rfl fun _ _ => BitVec.getLsbD_allOnes

/-- Settles O42. -/
theorem popcountLaws : Obligations.PopcountLaws := by
  intro w x c
  refine ⟨toNat_popcountFallback x, popcountRef_zero _, popcountRef_ones _, popcountRef_not x,
    ?lanes, popcountRef_bc w c⟩
  case lanes =>
    rw [popcountRef_eq_sum_lanesOf, lanesOf, List.map_map]
    rfl

/-! ## The contracts of `POPCNT`, `CLZ` and `CTZ` -/

/-- `POPCNT` reads the number of set bits and changes nothing else, on either path (R80). -/
theorem exec_popcnt (w : Width) (p : Path) (x : Field64) (s : State) :
    exec (.popcnt w p x) s =
      .next (s.reading ⟨countResult (popcountRef (operand w x)), false, false⟩) := by
  rw [exec_eq_conclude, responseOf, respPopcnt, popcountOn_eq, conclude_completed]

/-- `CLZ` of a nonzero operand reads its reference count and changes nothing else, on either path
(R83). -/
theorem exec_clz {w : Width} (p : Path) {x : Field64} (s : State) (h : operand w x ≠ 0) :
    exec (.clz w p x) s =
      .next (s.reading ⟨countResult (clzRef (operand w x) h), false, false⟩) := by
  rw [exec_eq_conclude, responseOf, respClz, clzChecked_of_ne_zero _ h, checked_some,
    conclude_completed]

/-- `CTZ` of a nonzero operand reads its reference count and changes nothing else, on either path
(R86). -/
theorem exec_ctz {w : Width} (p : Path) {x : Field64} (s : State) (h : operand w x ≠ 0) :
    exec (.ctz w p x) s =
      .next (s.reading ⟨countResult (ctzRef (operand w x) h), false, false⟩) := by
  rw [exec_eq_conclude, responseOf, respCtz, ctzChecked_of_ne_zero _ h, checked_some,
    conclude_completed]

/-- An operation whose precondition is violated reads `PV` with some `R`; besides, only the draw count
changes (R96). -/
theorem exec_of_violated (s : State) {i : Instr} (hbad : Violated i) :
    ∃ r, exec i s = .next { s.reading ⟨r, true, false⟩ with draws := s.draws + 1 } :=
  ⟨_, exec_next.mpr (.inr ⟨(resultOf_eq_none_iff s.cfg i).mpr hbad, rfl⟩)⟩

/-- Settles O39: on either path and in every configuration the responses hold the reference counts. -/
theorem pathsAgree : Obligations.PathsAgree :=
  ⟨fun _ x => toNat_popcountFallback x,
    fun _ x h => ⟨toNat_clzFallback x h, toNat_ctzFallback x h⟩,
    fun s cfg w p q x h => ⟨_, _, _, exec_popcnt w p x s, exec_popcnt w q x { s with cfg := cfg },
      exec_clz p s h, exec_clz q { s with cfg := cfg } h,
      exec_ctz p s h, exec_ctz q { s with cfg := cfg } h⟩⟩

theorem countResult_zero : countResult 0 = 0 := rfl

/-- A whole step of a decoded bit count, with its count evaluated. -/
theorem step_of_exec_countResult {s : State} {i : Instr} {m n : Nat} (hdec : decode s.cmd = .ok i)
    (hexec : exec i s = .next (s.reading ⟨countResult m, false, false⟩)) (hmn : m = n) :
    step s = .next (s.reading ⟨BitVec.ofNat 64 n, false, false⟩) := by
  rw [stepRunsDecodedInstruction s _ hdec, hexec, hmn, countResult]

theorem operand_zero (w : Width) : operand w 0 = 0 :=
  (operand_eq_zero_iff w 0).mpr (Nat.zero_mod _)

theorem operand_allOnes (w : Width) : operand w (BitVec.allOnes 64) = ones w.bits := by
  cases w <;> decide

/-- Settles O41: the example's two commands decode to the same `popcnt.64` on either path. -/
theorem popcntAnswersBitCount : Obligations.PopcntAnswersBitCount := by
  refine ⟨fun w p x s => ?count, fun w p s => ⟨?zero, ?ones⟩, fun s hcmd => ?wholeStep⟩
  case count =>
    have hbits : popcountRef (operand w x) =
        (List.range w.bits).countP fun i => x.getLsbD i :=
      List.countP_congr fun i hi => by
        rw [getLsbD_operand, decide_eq_true (List.mem_range.mp hi), Bool.true_and]
    rw [exec_popcnt, hbits, countResult]
  case zero => rw [exec_popcnt, operand_zero, popcountRef_zero, countResult_zero]
  case ones => rw [exec_popcnt, operand_allOnes, popcountRef_ones, countResult]
  case wholeStep =>
    have hdec : ∃ p, decode s.cmd = .ok (.popcnt .w64 p 0x0102030405060708) := by
      rcases hcmd with hcmd | hcmd
      · exact ⟨.fallback, hcmd ▸ by decide⟩
      · exact ⟨.fast, hcmd ▸ by decide⟩
    obtain ⟨p, hdec⟩ := hdec
    exact step_of_exec_countResult (n := 13) hdec (exec_popcnt _ p _ s) (by decide)

/-- `CLZ` by the highest set bit within the width (R83). -/
theorem exec_clz_of_highest {w : Width} (p : Path) {x : Field64} {m : Nat} (s : State)
    (hw : m < w.bits) (hm : x.getLsbD m = true)
    (habove : ∀ j, m < j → j < w.bits → x.getLsbD j = false) :
    exec (.clz w p x) s = .next (s.reading ⟨countResult (w.bits - 1 - m), false, false⟩) := by
  have hset : (operand w x).getLsbD m = true := by
    rw [getLsbD_operand, decide_eq_true hw, hm, Bool.true_and]
  have hclear : ∀ j, m < j → (operand w x).getLsbD j = false := by
    intro j hj
    rw [getLsbD_operand]
    by_cases hjw : j < w.bits
    · rw [habove j hj hjw, Bool.and_false]
    · rw [decide_eq_false hjw, Bool.false_and]
  have hne := ne_zero_of_getLsbD hset
  rw [exec_clz p s hne, clzRef, highestSet_eq hne hset hclear]

/-- `CTZ` by the lowest set bit (R86). -/
theorem exec_ctz_of_lowest {w : Width} (p : Path) {x : Field64} {m : Nat} (s : State)
    (hw : m < w.bits) (hm : x.getLsbD m = true) (hbelow : ∀ j, j < m → x.getLsbD j = false) :
    exec (.ctz w p x) s = .next (s.reading ⟨countResult m, false, false⟩) := by
  have hset : (operand w x).getLsbD m = true := by
    rw [getLsbD_operand, decide_eq_true hw, hm, Bool.true_and]
  have hclear : ∀ j, j < m → (operand w x).getLsbD j = false := by
    intro j hj
    rw [getLsbD_operand, hbelow j hj, Bool.and_false]
  have hne := ne_zero_of_getLsbD hset
  rw [exec_ctz p s hne, ctzRef, lowestSet_eq hne hset hclear]

theorem clzRef_lt {W : Nat} (x : BitVec W) (h : x ≠ 0) : clzRef x h < W := by
  obtain ⟨-, hin, -⟩ := highestSet_spec x h
  rw [clzRef]
  omega

theorem ctzRef_lt {W : Nat} (x : BitVec W) (h : x ≠ 0) : ctzRef x h < W := by
  obtain ⟨-, hin, -⟩ := lowestSet_spec x h
  exact hin

/-- Settles O43. -/
theorem clzAnswersLeadingZeros : Obligations.ClzAnswersLeadingZeros := by
  refine ⟨fun _ p _ _ s hw hm habove => exec_clz_of_highest p s hw hm habove,
    fun _ p _ s h => ⟨_, clzRef_lt _ h, exec_clz p s h⟩, fun s hcmd => ?wholeStep⟩
  have hdec : decode s.cmd = .ok (.clz .w32 .fallback 0x00010000) := hcmd ▸ by decide
  exact step_of_exec_countResult (n := 15) hdec (exec_clz _ s (by decide)) (by decide)

/-- Settles O44. -/
theorem ctzAnswersTrailingZeros : Obligations.CtzAnswersTrailingZeros := by
  refine ⟨fun _ p _ _ s hw hm hbelow => exec_ctz_of_lowest p s hw hm hbelow,
    fun _ p _ s h => ⟨_, ctzRef_lt _ h, exec_ctz p s h⟩, fun s hcmd => ?wholeStep⟩
  have hdec : decode s.cmd = .ok (.ctz .w32 .fallback 0x00010000) := hcmd ▸ by decide
  exact step_of_exec_countResult (n := 16) hdec (exec_ctz _ s (by decide)) (by decide)

/-! ## The intermediate words of the fallbacks -/

/-- The smeared word as a number (R84). -/
theorem toNat_smear_eq_two_pow_sub_one {w : Width} (x : BitVec w.bits) (h : x ≠ 0) :
    (smear x).toNat = 2 ^ (highestSet x h + 1) - 1 := by
  refine Nat.eq_of_testBit_eq fun i => ?_
  rw [← BitVec.getLsbD, getLsbD_smear x h, Nat.testBit_two_pow_sub_one]

/-- Settles O45. -/
theorem smearFillsBelowHighest : Obligations.SmearFillsBelowHighest :=
  fun _ x h => ⟨toNat_smear_eq_two_pow_sub_one x h, toNat_clzFallback x h⟩

/-- Settles O46. -/
theorem lowestBitIsolated : Obligations.LowestBitIsolated := by
  intro w x h
  obtain ⟨-, hin, -⟩ := lowestSet_spec x h
  refine ⟨?isolated, toNat_isolateLowest_sub_one x h, toNat_ctzFallback x h⟩
  rw [isolateLowest_eq_twoPow x h, BitVec.toNat_twoPow_of_lt hin]

/-! ## Words with one or two set bits -/

theorem bits_le (w : Width) : w.bits ≤ 64 := by
  cases w <;> decide

/-- The bits of the word of R89: those at `i` and `j`. -/
theorem getLsbD_two_bits_iff {i j k : Nat} (hk : k < 64) :
    ((1#64 <<< i) ||| (1#64 <<< j)).getLsbD k = true ↔ k = i ∨ k = j := by
  have hone : ∀ n, (1#64 <<< n).getLsbD k = true ↔ k = n := by
    intro n
    rw [← BitVec.twoPow_eq, BitVec.getLsbD_twoPow, Bool.and_eq_true, decide_eq_true_eq,
      decide_eq_true_eq]
    omega
  rw [BitVec.getLsbD_or, Bool.or_eq_true, hone, hone]

/-- No other bit of the word of R89 is set. -/
theorem getLsbD_two_bits_of_ne {i j k : Nat} (hk : k < 64) (hi : k ≠ i) (hj : k ≠ j) :
    ((1#64 <<< i) ||| (1#64 <<< j)).getLsbD k = false :=
  Bool.eq_false_iff.mpr ((getLsbD_two_bits_iff hk).not.mpr (not_or.mpr ⟨hi, hj⟩))

theorem setBits_operand_two_bits {w : Width} {i j : Nat} (hi : i < w.bits) (hj : j < w.bits) :
    setBits (operand w ((1#64 <<< i) ||| (1#64 <<< j))) = {i, j} := by
  have hw := bits_le w
  ext k
  rw [setBits_operand, Finset.mem_filter, Finset.mem_range, Finset.mem_insert,
    Finset.mem_singleton]
  constructor
  · rintro ⟨hk, hset⟩
    exact (getLsbD_two_bits_iff (hk.trans_le hw)).mp hset
  · intro hk
    have hkw : k < w.bits := by omega
    exact ⟨hkw, (getLsbD_two_bits_iff (hkw.trans_le hw)).mpr hk⟩

/-- Settles O48. -/
theorem twoBitWords : Obligations.TwoBitWords := by
  intro w p i j s hij hj
  have hw := bits_le w
  have hseti := (getLsbD_two_bits_iff (i := i) (j := j) (k := i) (by omega)).mpr (.inl rfl)
  have hsetj := (getLsbD_two_bits_iff (i := i) (j := j) (k := j) (by omega)).mpr (.inr rfl)
  refine ⟨?ctz, ?clz, ?popcnt⟩
  case ctz =>
    exact exec_ctz_of_lowest p s (by omega) hseti fun k hk =>
      getLsbD_two_bits_of_ne (by omega) (by omega) (by omega)
  case clz =>
    exact exec_clz_of_highest p s hj hsetj fun k hk hkw =>
      getLsbD_two_bits_of_ne (by omega) (by omega) (by omega)
  case popcnt =>
    rw [exec_popcnt, popcountRef_eq_card_setBits, setBits_operand_two_bits (by omega) hj]
    by_cases heq : i = j
    · rw [if_pos heq, heq, Finset.pair_eq_singleton, Finset.card_singleton]
      rfl
    · rw [if_neg heq, Finset.card_pair heq]
      rfl

/-! ## How the counts relate -/

/-- The set bits of a field that fits in 32 bits lie inside both widths. -/
theorem lt_bits_of_getLsbD {x : Field64} (hx : x.toNat < 2 ^ 32) (w : Width) {i : Nat}
    (hset : x.getLsbD i = true) : i < 32 ∧ i < w.bits := by
  have hw : 32 ≤ w.bits := by cases w <;> decide
  have hpow : 2 ^ i < 2 ^ 32 := (Nat.ge_two_pow_of_testBit hset).trans_lt hx
  have hi := (Nat.pow_lt_pow_iff_right Nat.one_lt_two).mp hpow
  exact ⟨hi, hi.trans_le hw⟩

/-- At both widths a field that fits in 32 bits has the same count (R91). -/
theorem popcountRef_operand_of_lt {x : Field64} (hx : x.toNat < 2 ^ 32) (w : Width) :
    popcountRef (operand w x) = popcountRef x := by
  have hbits : setBits (operand w x) = setBits x := by
    ext i
    rw [setBits_operand, Finset.mem_filter, Finset.mem_range, mem_setBits]
    exact and_iff_right_of_imp fun hset => (lt_bits_of_getLsbD hx w hset).2
  rw [popcountRef_eq_card_setBits, popcountRef_eq_card_setBits, hbits]

/-- The set bits of a nonzero word lie between its lowest and its highest. -/
theorem setBits_subset_Icc {W : Nat} (x : BitVec W) (h : x ≠ 0) :
    setBits x ⊆ Finset.Icc (lowestSet x h) (highestSet x h) := by
  obtain ⟨-, -, hbelow⟩ := lowestSet_spec x h
  obtain ⟨-, -, habove⟩ := highestSet_spec x h
  intro i hi
  rw [mem_setBits] at hi
  rw [Finset.mem_Icc]
  by_contra hout
  rcases not_and_or.mp hout with hlt | hgt
  · simp [hbelow i (Nat.lt_of_not_le hlt)] at hi
  · simp [habove i (Nat.lt_of_not_le hgt)] at hi

theorem lowestSet_le_highestSet {W : Nat} (x : BitVec W) (h : x ≠ 0) :
    lowestSet x h ≤ highestSet x h := by
  obtain ⟨hset, -, -⟩ := lowestSet_spec x h
  obtain ⟨-, hle⟩ := Finset.mem_Icc.mp (setBits_subset_Icc x h (mem_setBits.mpr hset))
  exact hle

theorem popcountRef_le_span {W : Nat} (x : BitVec W) (h : x ≠ 0) :
    popcountRef x ≤ highestSet x h + 1 - lowestSet x h := by
  rw [popcountRef_eq_card_setBits, ← Nat.card_Icc]
  exact Finset.card_le_card (setBits_subset_Icc x h)

/-- One bit is set exactly when the lowest set bit is the highest. -/
theorem popcountRef_eq_one_iff {W : Nat} (x : BitVec W) (h : x ≠ 0) :
    popcountRef x = 1 ↔ lowestSet x h = highestSet x h := by
  obtain ⟨hlow, -, -⟩ := lowestSet_spec x h
  obtain ⟨hhigh, -, -⟩ := highestSet_spec x h
  rw [popcountRef_eq_card_setBits]
  constructor
  · intro hcard
    exact Finset.card_le_one.mp hcard.le _ (mem_setBits.mpr hlow) _ (mem_setBits.mpr hhigh)
  · intro heq
    have hpos := Finset.card_pos.mpr ⟨_, mem_setBits.mpr hlow⟩
    have hspan := popcountRef_le_span x h
    rw [popcountRef_eq_card_setBits] at hspan
    omega

/-- The span from the lowest to the highest set bit is full exactly when the set bits are
contiguous. -/
theorem popcountRef_eq_span_iff {W : Nat} (x : BitVec W) (h : x ≠ 0) :
    popcountRef x = highestSet x h + 1 - lowestSet x h ↔
      ∀ i, lowestSet x h ≤ i → i ≤ highestSet x h → x.getLsbD i = true := by
  rw [popcountRef_eq_card_setBits, ← Nat.card_Icc]
  constructor
  · intro hcard i hlow hhigh
    have hfull := Finset.eq_of_subset_of_card_le (setBits_subset_Icc x h) hcard.ge
    rw [← mem_setBits, hfull]
    exact Finset.mem_Icc.mpr ⟨hlow, hhigh⟩
  · intro hall
    refine congrArg Finset.card ((setBits_subset_Icc x h).antisymm fun i hi => ?_)
    obtain ⟨hlow, hhigh⟩ := Finset.mem_Icc.mp hi
    exact mem_setBits.mpr (hall i hlow hhigh)

/-- Settles O49: at both widths the lowest and the highest set bit of a 32-bit value are those of its
field; the relations of one word's counts are those of its set bits to the span they lie in. -/
theorem countRelations : Obligations.CountRelations := by
  refine ⟨fun p x s hx hne => ?widths, fun w x h => ?oneWord⟩
  case widths =>
    obtain ⟨hlow, -, hbelow⟩ := lowestSet_spec x hne
    obtain ⟨hhigh, -, habove⟩ := highestSet_spec x hne
    have hhighest := (lt_bits_of_getLsbD hx .w32 hhigh).1
    have hpopcnt := fun w =>
      popcountRef_operand_of_lt hx w ▸ exec_popcnt w p x s
    have hctz := fun w =>
      exec_ctz_of_lowest p s (lt_bits_of_getLsbD hx w hlow).2 hlow hbelow
    have hclz := fun w =>
      exec_clz_of_highest p s (lt_bits_of_getLsbD hx w hhigh).2 hhigh fun j hj _ => habove j hj
    have hwider : Width.w64.bits - 1 - highestSet x hne = 31 - highestSet x hne + 32 := by
      simp only [Width.bits]
      omega
    exact ⟨_, _, 31 - highestSet x hne, by omega, hpopcnt .w32, hpopcnt .w64, hctz .w32, hctz .w64,
      hclz .w32, hwider ▸ hclz .w64⟩
  case oneWord =>
    obtain ⟨-, hin, -⟩ := highestSet_spec x h
    have hle := lowestSet_le_highestSet x h
    have hspan := popcountRef_le_span x h
    rw [popcountRef_eq_one_iff x h, ← popcountRef_eq_span_iff x h, clzRef, ctzRef]
    omega

/-! ## Path selection, and zero operands -/

theorem selectPath_eq_fast_iff (cfg : Cfg) (p : Path) :
    selectPath cfg p = .fast ↔ p = .fast ∧ cfg.fastPathPresent = true := by
  cases p <;> simp [selectPath]

theorem selectPath_eq_fallback_iff (cfg : Cfg) (p : Path) :
    selectPath cfg p = .fallback ↔ ¬ (p = .fast ∧ cfg.fastPathPresent = true) := by
  rw [← selectPath_eq_fast_iff]
  cases selectPath cfg p <;> decide

/-- Settles O38: the fallback's result is the count that every path answers. -/
theorem pathSelection : Obligations.PathSelection := by
  refine ⟨fun cfg p => ⟨selectPath_eq_fast_iff cfg p, selectPath_eq_fallback_iff cfg p⟩,
    fun w x s => ?popcnt, fun w x s h => ⟨?clz, ?ctz⟩⟩
  case popcnt => rw [exec_popcnt, ← popcountOn_eq .fallback, popcountOn]
  case clz => rw [exec_clz _ s h, ← clzOn_eq .fallback, clzOn]
  case ctz => rw [exec_ctz _ s h, ← ctzOn_eq .fallback, ctzOn]

/-- Settles O47. -/
theorem zeroOperandReportsPv : Obligations.ZeroOperandReportsPv := by
  intro w p x s hx
  refine ⟨exec_of_violated s hx, exec_of_violated s hx, ?popcnt⟩
  rw [exec_popcnt, (operand_eq_zero_iff w x).mpr hx, popcountRef_zero, countResult_zero]

/-! ## The fallbacks as integer arithmetic -/

theorem toNat_ushiftRight_eq_div {W : Nat} (x : BitVec W) (k : Nat) :
    (x >>> k).toNat = x.toNat / 2 ^ k := by
  rw [BitVec.toNat_ushiftRight, Nat.shiftRight_eq_div_pow]

/-- The masks of R79 as quotients of integers. -/
theorem toNat_maskBy {w : Width} {d : Nat} (hd : d < 256) :
    (maskBy w.bits d).toNat = (2 ^ w.bits - 1) / d := by
  have hwide : d < 2 ^ w.bits :=
    hd.trans_le (Nat.pow_le_pow_right two_pos (lane_inside (lanes_pos w)))
  rw [maskBy, BitVec.toNat_udiv, ones, BitVec.toNat_allOnes, BitVec.toNat_ofNat,
    Nat.mod_eq_of_lt hwide]

/-- The formula of R79 over integers modulo `2^W`. -/
def popcountArith (w : Width) (x : Nat) : Nat :=
  let M := 2 ^ w.bits
  let s1 := (x + M - ((x / 2) &&& ((M - 1) / 3))) % M
  let s2 := ((s1 &&& ((M - 1) / 5)) + ((s1 / 4) &&& ((M - 1) / 5))) % M
  let s3 := ((s2 + s2 / 16) % M) &&& ((M - 1) / 17)
  s3 * ((M - 1) / 255) % M / 2 ^ (w.bits - 8)

/-- `popcount_fb` as integer arithmetic (R79). -/
theorem toNat_popcountFallback_eq_arith {w : Width} (x : BitVec w.bits) :
    (popcountFallback x).toNat = popcountArith w x.toNat := by
  have hrep : (rep w.bits).toNat = (2 ^ w.bits - 1) / 255 := toNat_maskBy (by decide)
  simp only [popcountFallback, byteSums, nibbleSums, pairSums, popcountArith, hrep,
    toNat_ushiftRight_eq_div, toNat_sub_eq_mod, BitVec.toNat_mul, BitVec.toNat_and,
    BitVec.toNat_add, toNat_maskBy (w := w) (d := 3) (by decide),
    toNat_maskBy (w := w) (d := 5) (by decide), toNat_maskBy (w := w) (d := 17) (by decide)]
  rfl

/-- The smearing steps of R82 over integers. -/
def smearArith (W x : Nat) : Nat :=
  (smearShifts W).foldl (fun y n => y ||| y / 2 ^ n) x

/-- `y6` as integer arithmetic (R82). -/
theorem toNat_smear_eq_arith {W : Nat} (x : BitVec W) :
    (smear x).toNat = smearArith W x.toNat := by
  refine (List.foldl_hom BitVec.toNat fun y n => ?_).symm
  rw [BitVec.toNat_or, toNat_ushiftRight_eq_div]

/-- `low` as integer arithmetic (R85). -/
theorem toNat_isolateLowest_eq_arith {W : Nat} (x : BitVec W) :
    (isolateLowest x).toNat = x.toNat &&& ((2 ^ W - x.toNat) % 2 ^ W) := by
  rw [isolateLowest, BitVec.toNat_and, BitVec.toNat_neg]

/-- `clz_fb` as integer arithmetic (R82). -/
theorem toNat_clzFallback_eq_arith {w : Width} (x : BitVec w.bits) :
    (clzFallback x).toNat = popcountArith w (2 ^ w.bits - 1 - smearArith w.bits x.toNat) := by
  rw [clzFallback, toNat_popcountFallback_eq_arith, BitVec.toNat_not, toNat_smear_eq_arith]

/-- `ctz_fb` as integer arithmetic (R85). -/
theorem toNat_ctzFallback_eq_arith {w : Width} (x : BitVec w.bits) :
    (ctzFallback x).toNat = popcountArith w
      (((x.toNat &&& ((2 ^ w.bits - x.toNat) % 2 ^ w.bits)) + 2 ^ w.bits - 1) % 2 ^ w.bits) := by
  have hone : (1 : BitVec w.bits).toNat = 1 := by cases w <;> rfl
  rw [ctzFallback, toNat_popcountFallback_eq_arith, toNat_sub_eq_mod, hone,
    toNat_isolateLowest_eq_arith]

/-- Settles O40: the steps of the smearing, written out, are those of its shifts at either width. -/
theorem fallbackFormulasByArithmetic : Obligations.FallbackFormulasByArithmetic := by
  intro w x
  refine ⟨toNat_popcountFallback_eq_arith x, ?smear, ?clz, toNat_isolateLowest_eq_arith x,
    toNat_ctzFallback_eq_arith x⟩
  case smear => cases w <;> exact toNat_smear_eq_arith x
  case clz => cases w <;> exact toNat_clzFallback_eq_arith x

end Sys2Proof.Machine

/-! SUPPORT. The status bits by the arithmetic fields of the command, and the statements of
60_exceptions.md they settle. -/

namespace Sys2Proof.Machine

/-- The operand field holds the low `W` bits only (R38). -/
theorem operandField_mod_two_pow_bits (c : Command) :
    operandField c % 2 ^ (widthField c).bits = operandField c :=
  Nat.mod_mod _ _

/-- The cause table of R96 reads the same on a command and on the instruction it spells. -/
theorem violatingCommand_iff_of_spells {c : Command} {i : Instr} (h : Spells c i) :
    ViolatingCommand c ↔ Violated i := by
  cases i with
  | hasbtw w x a b =>
    obtain ⟨hop, -, -, ha, hb⟩ := h
    simp [ViolatingCommand, Violated, hop, ha, hb]
  | clz w p x | ctz w p x =>
    obtain ⟨hop, rfl, hx, -⟩ := h
    simp [ViolatingCommand, Violated, hop, ← hx, operandField_mod_two_pow_bits]
  | bcast | haszero | haseq | haslt | hasgt | popcnt => simp [ViolatingCommand, Violated, h.1]

/-- The port of an illegal command, whatever its other fields hold (R95, R97). -/
theorem rsp_of_not_legal {s : State} (h : ¬ LegalCommand s.cmd) : s.rsp = illegalResponse := by
  obtain ⟨e, hdec⟩ := exists_decode_eq_error_of_not_legal h
  exact State.rsp_of_error hdec

/-- The status bits of a legal command (R94, R96). -/
theorem rsp_status_of_legal {s : State} (h : LegalCommand s.cmd) :
    s.rsp.ill = false ∧ (s.rsp.pv = true ↔ ViolatingCommand s.cmd) := by
  obtain ⟨i, hi⟩ := exists_spells h.1
  have hdec : decode s.cmd = .ok i := (decode_eq_ok_iff_spells s.cmd i).mpr ⟨h, hi⟩
  rw [State.rsp_of_ok hdec, responseOf_eq_checked, violatingCommand_iff_of_spells hi,
    ← resultOf_eq_none_iff s.cfg i]
  exact checked_status (s.draw i) (resultOf s.cfg i)

/-- The one cause of `ILL` (R95). -/
theorem rsp_ill_iff (s : State) : s.rsp.ill = true ↔ ¬ LegalCommand s.cmd := by
  by_cases h : LegalCommand s.cmd
  · simp [h, (rsp_status_of_legal h).1]
  · simp [h, rsp_of_not_legal h]

/-- The causes of `PV` (R96). -/
theorem rsp_pv_iff (s : State) :
    s.rsp.pv = true ↔ LegalCommand s.cmd ∧ ViolatingCommand s.cmd := by
  by_cases h : LegalCommand s.cmd
  · simp [h, (rsp_status_of_legal h).2]
  · simp [h, rsp_of_not_legal h]

/-- `PV` excludes `ILL` (R97). -/
theorem rsp_ill_of_pv {s : State} (h : s.rsp.pv = true) : s.rsp.ill = false :=
  (rsp_status_of_legal ((rsp_pv_iff s).mp h).1).1

/-- Settles O9. -/
theorem everyCommandHasResponse : Obligations.EveryCommandHasResponse := by
  intro s
  refine ⟨s.answered, step_eq_next_answered s, ?completed, ?violated, (rsp_ill_iff s).mpr⟩
  case completed =>
    intro hlegal hok
    obtain ⟨hill, hpv⟩ := rsp_status_of_legal hlegal
    exact ⟨Bool.eq_false_iff.mpr (hpv.not.mpr hok), hill⟩
  case violated => exact fun hlegal hbad => (rsp_pv_iff s).mpr ⟨hlegal, hbad⟩

/-- Settles O10: what a transaction leaves behind is fixed by the response, and `PV` fixes all of that
but `R`. -/
theorem preconditionViolatedExactly : Obligations.PreconditionViolatedExactly := by
  intro s t hstep
  obtain rfl := step_eq_next_iff.mp hstep
  refine ⟨rsp_pv_iff s, fun (hpv : s.rsp.pv = true) => ⟨s.rsp.r, ?_⟩⟩
  have hrsp : s.rsp = ⟨s.rsp.r, true, false⟩ :=
    congrArg₂ (Response.mk s.rsp.r) hpv (rsp_ill_of_pv hpv)
  rw [State.answered, hpv, ← hrsp]
  rfl

/-- Settles O11: each failed test of `HASBTW` is a cause of `PV`. -/
theorem statusBitsPriority : Obligations.StatusBitsPriority := by
  intro s t hstep
  obtain rfl := step_eq_next_iff.mp hstep
  refine ⟨rsp_of_not_legal, ?exclusive, ?hasbtw⟩
  case exclusive =>
    rintro ⟨hpv, hill⟩
    exact absurd hill (Bool.eq_false_iff.mp (rsp_ill_of_pv hpv))
  case hasbtw =>
    intro hlegal hop
    have pv_of_test (h : aField s.cmd > 127 ∨ bField s.cmd > 128 ∨ aField s.cmd ≥ bField s.cmd) :
        s.rsp.pv = true := (rsp_pv_iff s).mpr ⟨hlegal, .inr (.inr ⟨hop, h⟩)⟩
    exact ⟨fun ha => pv_of_test (.inl ha), fun hb => pv_of_test (.inr (.inl hb)),
      fun hab => pv_of_test (.inr (.inr hab))⟩

end Sys2Proof.Machine
